-- ==== Sys2Proof/Word.lean ====
section
/-!
DEFINITION. The value types of the core (spec/00_scope.md R9): Words, nibbles, Keys, responses and the
round-constant tables. All of them are fixed-width unsigned bit patterns (R10); nothing here is signed.
-/

namespace Sys2Proof

/-- R9: "an exact 64-bit unsigned integer" (cipher state, key halves, round constants, pointers, masks). -/
abbrev Word := BitVec 64

/-- R12: one of the sixteen 4-bit fields of a Word; also the width of a usage code (R9). -/
abbrev Nibble := BitVec 4

/-- R39: the 128-bit response port `r`. -/
abbrev Response := BitVec 128

/-- R9: a Key is "a pair of Words (`hi`, `lo`) representing a 128-bit value"; every pair is admissible. -/
structure Key where
  hi : Word
  lo : Word
deriving DecidableEq, Repr

/-- R9: "an ordered sequence of exactly 12 Words", indices 0 to 11; the length is part of the type (R7). -/
abbrev RoundConstantTable := Vector Word 12

end Sys2Proof
end

