-- ==== Sys2Proof/Config.lean ====
section
/-!
DEFINITION. The configuration of the core (spec/00_scope.md R6): the constant tables and named parameters that
are fixed for a machine and held by no request and no state (spec/10_state.md R22, R27), and the parameters the
spec leaves OPEN, as constants without a body. The default values of the other tables stand in
Sys2Proof/Machine/Tables.lean.
-/

namespace Sys2Proof

/-- `USAGE_CODES` (R6, R84, D12): a set of 8 usage codes, each with its key name. The codes rise strictly, so that no code
stands twice and one set is written in one way. The default fields are no codes of the hardware: they show that such a
set exists, which a constant without a body needs. -/
structure UsageCodes where
  /-- the 8 (code, name) pairs -/
  codes : Vector (Nibble × String) 8 := .ofFn fun i => (BitVec.ofNat 4 i.val, "")
  /-- the codes are 8 different ones, in rising order -/
  rising : ∀ i j : Fin 8, i < j → codes[i].1 < codes[j].1 := by decide
deriving DecidableEq, Repr, Inhabited

/-- R6, spec/93_implementation_defined.md: every parameter of the core. The inverse tables `SBOX_INV` and `SR_INV`
are no fields: R54 and R57 define them from `SBOX` and `SR`. -/
structure Config where
  /-- `SBOX`: 16 entries of 4 bits (R54). -/
  sbox : Vector Nibble 16
  /-- `SR`: output nibble `n` is taken from input nibble `sr[n]` (R57). -/
  sr : Vector (Fin 16) 16
  /-- `MROW`: row `i` is the image of the Word whose only set bit is bit `63 - i` (R60, R61). -/
  mrow : Vector Word 64
  /-- `RC_PRINCE`, the generic PRINCE round constants (R71). -/
  rcPrince : RoundConstantTable
  /-- `RC_APPLE`, Apple's variant table (R72). -/
  rcApple : RoundConstantTable
  /-- `ERR_LSB_TBI`: lower bit of the error code when `tbi` is set (R100, U9). -/
  errLsbTbi : Nat
  /-- `ERR_LSB_NOTBI`: lower bit of the error code when `tbi` is clear (R100, U9). -/
  errLsbNotbi : Nat
  /-- `USAGE_CODES`: the set of the 8 defined usage codes with their key names (R84, U7); read by no rule. -/
  usageCodes : UsageCodes
  /-- `LATENCY`: read by no rule (R130, U13). -/
  latency : Nat

/-- `RC_APPLE` of the hardware: OPEN (R72, 92_eei_decisions.md D7). A free value: no body, so nothing can be proved
of its entries. DESIGN CHOICE, safe: notes/assumptions/1.md. -/
opaque Config.openRcApple : RoundConstantTable

/-- `USAGE_CODES` of the hardware: OPEN (R84, D12). A free value, read by no rule. DESIGN CHOICE, safe:
notes/assumptions/2.md. -/
opaque Config.openUsageCodes : UsageCodes

/-- `LATENCY` of the hardware: OPEN (R130, D14). A free value, read by no rule. DESIGN CHOICE, safe:
notes/assumptions/2.md. -/
opaque Config.openLatency : Nat

end Sys2Proof
end

