-- ==== Sys2Proof/Syntax.lean ====
section
/-!
DEFINITION. The request as it stands on the input ports (spec/30_encoding.md R37), and the instruction it stands
for: one constructor for each row of spec/opcode_table.json, its arguments those of DOC's function signature in
DOC's order (R41, R49).
-/

namespace Sys2Proof

/-- R37, R47: one request is the values of the four input ports, in one format of one length. -/
structure Request where
  /-- control word: operation code and scalar parameters (R38) -/
  ctl : BitVec 18
  /-- first data Word (R41) -/
  a : Word
  /-- second data Word (R41) -/
  b : Word
  /-- the Key port, `hi` in the upper half (R43) -/
  k : BitVec 128
deriving DecidableEq, Repr

/-- R76: the "closed enum of two named constant sets" that `rc_sel` selects from. -/
inductive RcTable
  | prince
  | apple
deriving DecidableEq, Repr

/-- The six operations (R40). `bpb` is DOC's `bottom_pac_bit`, an index (R12); WellFormed bounds it to 0..63. A port
or field that the operation ignores (R42) is no argument of its constructor. -/
inductive Instr
  /-- STRIP: `strip(ptr, bottom_pac_bit, tbi)` (R104) -/
  | strip (ptr : Word) (bpb : Nat) (tbi : Bool)
  /-- ADDPAC: `add_pac(ptr, k_hi, k_lo, modifier, bottom_pac_bit, tbi, have_enhanced_pac, have_enhanced_pac2)` (R105) -/
  | addpac (ptr kHi kLo modifier : Word) (bpb : Nat) (tbi ehp ehp2 : Bool)
  /-- AUTH: `auth(ptr, k_hi, k_lo, b_key, modifier, bottom_pac_bit, tbi, have_enhanced_pac2)` (R106) -/
  | auth (ptr kHi kLo : Word) (bKey : Bool) (modifier : Word) (bpb : Nat) (tbi ehp2 : Bool)
  /-- KDF: `kdf(ikey_hi, ikey_lo, data_hi, data_lo, usage)` (R86) -/
  | kdf (ikeyHi ikeyLo dataHi dataLo : Word) (usage : Nibble)
  /-- MPRINCE: `modified_prince(value, k0, k1, modifier)` (R80) -/
  | mprince (value k0 k1 modifier : Word)
  /-- PRINCE: `prince(value, k0, k1, round_constants)` (R79) -/
  | prince (value k0 k1 : Word) (rc : RcTable)
deriving DecidableEq, Repr

end Sys2Proof
end

