-- ==== Sys2Proof/WellFormed.lean ====
section
/-!
DEFINITION. Which instructions a request can carry. The one static check is DOC's invariant that
"`bottom_pac_bit` must lie in [0,63]" (spec/10_state.md R25, spec/30_encoding.md R44); every other argument is
bounded by its type, and R25 and R107 forbid any further check.
-/

namespace Sys2Proof

/-- Every argument fits the request field that carries it (R38, R44). -/
def WellFormed : Instr → Bool
  | .strip _ bpb _ => bpb ≤ 63
  | .addpac _ _ _ _ bpb _ _ _ => bpb ≤ 63
  | .auth _ _ _ _ _ bpb _ _ => bpb ≤ 63
  | .kdf _ _ _ _ _ => true
  | .mprince _ _ _ _ => true
  | .prince _ _ _ _ => true

end Sys2Proof
end

