-- ==== Sys2Proof/Decode.lean ====
section
/-!
DEFINITION. The request decoder (spec/30_encoding.md R38 to R46, R51), total on every request and refusing the two
reserved operation codes by name; after it the encoder, the text syntax of R49, and the host's view of a request
as one number.
-/

namespace Sys2Proof

/-! ## The fields of the control word (R38) -/

/-- `op = ctl[2:0]` -/
def ctlOp (ctl : BitVec 18) : BitVec 3 := ctl.extractLsb' 0 3
/-- `tbi = ctl[3]` -/
def ctlTbi (ctl : BitVec 18) : Bool := ctl.getLsbD 3
/-- `ehp = ctl[4]` -/
def ctlEhp (ctl : BitVec 18) : Bool := ctl.getLsbD 4
/-- `ehp2 = ctl[5]` -/
def ctlEhp2 (ctl : BitVec 18) : Bool := ctl.getLsbD 5
/-- `b_key = ctl[6]` -/
def ctlBKey (ctl : BitVec 18) : Bool := ctl.getLsbD 6
/-- `rc_sel = ctl[7]`: 0 is `RC_PRINCE`, 1 is `RC_APPLE` (R20) -/
def ctlRcSel (ctl : BitVec 18) : RcTable := if ctl.getLsbD 7 then .apple else .prince
/-- `bpb = ctl[13:8]`, zero-extended to an index, never scaled (R48 a) -/
def ctlBpb (ctl : BitVec 18) : Nat := (ctl.extractLsb' 8 6).toNat
/-- `usage = ctl[17:14]` -/
def ctlUsage (ctl : BitVec 18) : Nibble := ctl.extractLsb' 14 4
/-- `k[127:64]`, the Key's `hi` Word (R43) -/
def keyPortHi (k : BitVec 128) : Word := k.extractLsb' 64 64
/-- `k[63:0]`, the Key's `lo` Word (R43) -/
def keyPortLo (k : BitVec 128) : Word := k.extractLsb' 0 64

/-! ## Decoding -/

/-- Why a request selects no operation. -/
inductive DecodeError
  /-- R46: `op` is 6 or 7 -/
  | reservedOp (op : BitVec 3)
deriving DecidableEq, Repr

/-- R40, R41, R51: `op` alone selects the operation; the other ports and fields are its operands or are ignored. -/
def decode (q : Request) : Except DecodeError Instr :=
  match (ctlOp q.ctl).toNat with
  | 0 => .ok (.strip q.a (ctlBpb q.ctl) (ctlTbi q.ctl))
  | 1 => .ok (.addpac q.a (keyPortHi q.k) (keyPortLo q.k) q.b (ctlBpb q.ctl) (ctlTbi q.ctl) (ctlEhp q.ctl) (ctlEhp2 q.ctl))
  | 2 => .ok (.auth q.a (keyPortHi q.k) (keyPortLo q.k) (ctlBKey q.ctl) q.b (ctlBpb q.ctl) (ctlTbi q.ctl) (ctlEhp2 q.ctl))
  | 3 => .ok (.kdf (keyPortHi q.k) (keyPortLo q.k) q.a q.b (ctlUsage q.ctl))
  | 4 => .ok (.mprince q.a (keyPortHi q.k) (keyPortLo q.k) q.b)
  | 5 => .ok (.prince q.a (keyPortHi q.k) (keyPortLo q.k) (ctlRcSel q.ctl))
  | _ => .error (.reservedOp (ctlOp q.ctl))

/-! ## Encoding -/

/-- R38: the control word, most significant field first:
`usage`, `bpb`, `rc_sel`, `b_key`, `ehp2`, `ehp`, `tbi`, `op`. -/
def packCtl (op : BitVec 3) (tbi ehp ehp2 bKey rcSel : Bool) (bpb : Nat) (usage : Nibble) : BitVec 18 :=
  usage ++ BitVec.ofNat 6 bpb ++ BitVec.ofBool rcSel ++ BitVec.ofBool bKey ++ BitVec.ofBool ehp2 ++
    BitVec.ofBool ehp ++ BitVec.ofBool tbi ++ op

/-- R40: the operation code of each mnemonic. -/
def opOf : Instr → BitVec 3
  | .strip _ _ _ => 0
  | .addpac _ _ _ _ _ _ _ _ => 1
  | .auth _ _ _ _ _ _ _ _ => 2
  | .kdf _ _ _ _ _ => 3
  | .mprince _ _ _ _ => 4
  | .prince _ _ _ _ => 5

/-- The request that carries an instruction (R41), zero in every port and field that the operation ignores (R42
lets them hold anything). DESIGN CHOICE, safe: notes/assumptions/11.md. -/
def encode : Instr → Request
  | .strip ptr bpb tbi =>
    { ctl := packCtl 0 tbi false false false false bpb 0, a := ptr, b := 0, k := 0 }
  | .addpac ptr kHi kLo modifier bpb tbi ehp ehp2 =>
    { ctl := packCtl 1 tbi ehp ehp2 false false bpb 0, a := ptr, b := modifier, k := kHi ++ kLo }
  | .auth ptr kHi kLo bKey modifier bpb tbi ehp2 =>
    { ctl := packCtl 2 tbi false ehp2 bKey false bpb 0, a := ptr, b := modifier, k := kHi ++ kLo }
  | .kdf ikeyHi ikeyLo dataHi dataLo usage =>
    { ctl := packCtl 3 false false false false false 0 usage, a := dataHi, b := dataLo, k := ikeyHi ++ ikeyLo }
  | .mprince value k0 k1 modifier =>
    { ctl := packCtl 4 false false false false false 0 0, a := value, b := modifier, k := k0 ++ k1 }
  | .prince value k0 k1 rc =>
    { ctl := packCtl 5 false false false false (rc == .apple) 0 0, a := value, b := 0, k := k0 ++ k1 }

/-! ## Text syntax (R49; DESIGN CHOICE, safe: notes/assumptions/12.md) -/

/-- An argument as R49 writes it: Words in hexadecimal, flags as `0` or `1`, indices and usage codes in decimal,
tables by name. -/
inductive TextArg
  | hex (w : Word)
  | flag (f : Bool)
  | dec (n : Nat)
  | table (name : String)
deriving DecidableEq, Repr

/-- The mnemonic of R40. -/
def mnemonicOf : Instr → String
  | .strip _ _ _ => "STRIP"
  | .addpac _ _ _ _ _ _ _ _ => "ADDPAC"
  | .auth _ _ _ _ _ _ _ _ => "AUTH"
  | .kdf _ _ _ _ _ => "KDF"
  | .mprince _ _ _ _ => "MPRINCE"
  | .prince _ _ _ _ => "PRINCE"

/-- R76: the table's name. -/
def rcTableName : RcTable → String
  | .prince => "RC_PRINCE"
  | .apple => "RC_APPLE"

/-- R49: "with the arguments in DOC's order and all of them present". -/
def textArgs : Instr → List TextArg
  | .strip ptr bpb tbi => [.hex ptr, .dec bpb, .flag tbi]
  | .addpac ptr kHi kLo modifier bpb tbi ehp ehp2 =>
    [.hex ptr, .hex kHi, .hex kLo, .hex modifier, .dec bpb, .flag tbi, .flag ehp, .flag ehp2]
  | .auth ptr kHi kLo bKey modifier bpb tbi ehp2 =>
    [.hex ptr, .hex kHi, .hex kLo, .flag bKey, .hex modifier, .dec bpb, .flag tbi, .flag ehp2]
  | .kdf ikeyHi ikeyLo dataHi dataLo usage =>
    [.hex ikeyHi, .hex ikeyLo, .hex dataHi, .hex dataLo, .dec usage.toNat]
  | .mprince value k0 k1 modifier => [.hex value, .hex k0, .hex k1, .hex modifier]
  | .prince value k0 k1 rc => [.hex value, .hex k0, .hex k1, .table (rcTableName rc)]

/-- The hexadecimal digit of a nibble. -/
def hexDigit (v : Nibble) : Char := "0123456789ABCDEF".toList.getD v.toNat '0'

/-- One argument as text; a Word is `0x` and its sixteen hexadecimal digits, the most significant first. -/
def renderArg : TextArg → String
  | .hex w => "0x" ++ String.ofList ((List.range 16).map fun n => hexDigit (w.extractLsb' (60 - 4 * n) 4))
  | .flag f => if f then "1" else "0"
  | .dec n => toString n
  | .table name => name

/-- R49: "a request is written `MNEMONIC arg, arg, ...`". -/
def asmText (i : Instr) : String :=
  mnemonicOf i ++ " " ++ ", ".intercalate ((textArgs i).map renderArg)

/-! ## The request as one number (DESIGN CHOICE, unsafe: notes/assumptions/5.md) -/

/-- The request whose bits are the low `nbits` bits of `w`. The first word is the control word in three bytes, of
which bits 23:18 are padding and are ignored; `a`, `b` and `k` follow, from bit 24 on. -/
def requestOfBits (nbits w : Nat) : Request :=
  let bits := w % 2 ^ nbits
  { ctl := BitVec.ofNat 18 bits
    a := BitVec.ofNat 64 (bits >>> 24)
    b := BitVec.ofNat 64 (bits >>> 88)
    k := BitVec.ofNat 128 (bits >>> 152) }

/-- The instruction the decoder reads from a request given as one number; none where it refuses. -/
def decodeTableWord (nbits w : Nat) : Option Instr :=
  match decode (requestOfBits nbits w) with
  | .ok i => some i
  | .error _ => none

end Sys2Proof
end

