-- ==== Sys2Proof/Machine/State.lean ====
section
/-!
DEFINITION. State, the reasons a step can stop, and the state after reset. The core itself has no architectural
state (spec/10_state.md R13 to R19, R23): no register, program counter, flag, mode, memory or reservation. What
State holds is the run of R131, "a finite sequence of requests with their responses": the requests the caller has
issued, those the core has read, and what each of these got: a response, or a refusal.
-/

namespace Sys2Proof.Machine

/-- What a request gets. -/
inductive Reply
  /-- R39: a response. -/
  | response (r : Response)
  /-- R46, D4: no response; the request is marked refused, with the reason. It is the request that is refused, not the
  run: the requests behind it are served as if alone (R35). Unsafe, as notes/assumptions/6.md says. -/
  | refused (reason : DecodeError)
deriving DecidableEq, Repr

/-- The run so far and the requests still to be served (R131, D24). No field is a register of the core: nothing a
request leaves here is an operand of a later one (R13, R19, R26). DESIGN CHOICE, safe: notes/assumptions/7.md,
8.md, 9.md. -/
structure State where
  /-- requests the caller has issued and the core has not read yet, the next one first -/
  requests : List Request
  /-- requests the core has read, in the order of service -/
  served : List Request
  /-- what each request read got, in the same order -/
  replies : List Reply
deriving DecidableEq, Repr

/-- The core has no fault: R109, "No synchronous exception exists", and 93_implementation_defined.md, "Nothing in
this spec is treated as `fault` or `stuck`". Hence no constructor, and no step can answer a fault (safe). -/
inductive Fault
deriving DecidableEq, Repr

/-- Why the machine gives no meaning to a step. A request with a reserved `op` is not among the reasons: the step that
reads it marks it refused in the run (`Reply.refused`) and the run goes on. -/
inductive Refusal
  /-- Raised by an arm of exec whose instruction has no meaning yet (none has). Safe. -/
  | notModelled (mnemonic : String)
deriving DecidableEq, Repr

/-- R23, R123: there is nothing to reset; the core is ready for a request, none has been issued and none answered. The
three fields are the model's own, and so is their being empty. DESIGN CHOICE, safe: notes/assumptions/7.md. -/
def State.reset : State := { requests := [], served := [], replies := [] }

end Sys2Proof.Machine
end

