-- ==== Sys2Proof/Machine/Ops.lean ====
section
/-!
DEFINITION. The named operations: bit and nibble access to Words (spec/00_scope.md R10, R12), and what a step does to
the run: taking the next request, answering it, refusing it, waiting for one. The core has no memory operation
(R28) and no exception to take or to return from (R109, R113, R114), so neither has an operation here.
-/

namespace Sys2Proof.Machine

/-! ## Words (R10, R12) -/

/-- R12 `bit(n)`: the Word `1 << n`. -/
def bit (n : Nat) : Word := 1#64 <<< n

/-- R12 `ones(n)` as a Word: bits `n-1` down to 0 set. Written with a shift, since no rule subtracts Words (R10). -/
def onesBelow (n : Nat) : Word := ~~~(BitVec.allOnes 64 <<< n)

/-- R12 `ror1(w)`. -/
def ror1 (w : Word) : Word := (w >>> 1) ||| ((w &&& 1) <<< 63)

/-- R12 `nib(w, n) = w[63-4n : 60-4n]`: nibble 0 is the most significant. -/
def nib (w : Word) (n : Fin 16) : Nibble := w.extractLsb' (60 - 4 * n.val) 4

/-- The Word whose nibble `n` is `f n`, nibble 0 the most significant (R12). -/
def ofNibbles (f : Fin 16 → Nibble) : Word :=
  f 0 ++ f 1 ++ f 2 ++ f 3 ++ f 4 ++ f 5 ++ f 6 ++ f 7 ++
    f 8 ++ f 9 ++ f 10 ++ f 11 ++ f 12 ++ f 13 ++ f 14 ++ f 15

/-- R12 `zext_128`: the response of a one-Word operation, `r[127:64] = 0` (R39). -/
def zext128 (w : Word) : Response := w.setWidth 128

/-- R39, R43: a Key on a 128-bit port, `hi` in bits 127:64. -/
def keyBits (k : Key) : Response := k.hi ++ k.lo

/-! ## The run (R24, R32, R131) -/

/-- The core reads the next request whole (R24), which moves it to the served ones; none where the caller has issued
no further request. -/
def takeRequest (s : State) : Option (Request × State) :=
  match s.requests with
  | [] => none
  | q :: rest => some (q, { s with requests := rest, served := s.served ++ [q] })

/-- What the request just read got is entered in the run; the core keeps nothing else (R19). -/
def reply (x : Reply) (s : State) : Host.Outcome State Fault Refusal :=
  .next { s with replies := s.replies ++ [x] }

/-- The core produces the whole response at once (R24, R32). -/
def respond (r : Response) (s : State) : Host.Outcome State Fault Refusal := reply (.response r) s

/-- R46, D4: the request has no meaning, gets no response and is marked refused; the requests behind it are served as
if alone (R35). DEDUCED, unsafe: notes/assumptions/6.md. -/
def refuseRequest (e : DecodeError) (s : State) : Host.Outcome State Fault Refusal := reply (.refused e) s

/-- R123, R131: with no request issued the core stays ready and nothing happens. DESIGN CHOICE, unsafe:
notes/assumptions/4.md. -/
def idle (s : State) : Host.Outcome State Fault Refusal := .next s

/-- The caller issues a request, to be served after those already issued (R24, R122, notes/assumptions/8.md, 9.md). -/
def issue (q : Request) (s : State) : State := { s with requests := s.requests ++ [q] }

/-- A request placed where the core reads its next one; nothing else changes. -/
def issueNext (q : Request) (s : State) : State := { s with requests := q :: s.requests }

end Sys2Proof.Machine
end

