-- ==== Sys2Proof/Machine/Operands.lean ====
section
/-!
DEFINITION. The values assembled from request fields (spec/30_encoding.md R48): the selected round-constant table, the
two KDF modifiers, the mask of the code field, and the error code with its position. The index `bottom_pac_bit` and
the usage code themselves are read by the decoder.
-/

namespace Sys2Proof.Machine

/-- R76, R79: the table that `rc_sel` selects. -/
def selectTable (C : Config) : RcTable → RoundConstantTable
  | .prince => C.rcPrince
  | .apple => C.rcApple

/-- R82: `modifier1`, bit 3 of usage moved to bit 5, the low three bits kept. -/
def kdfModifier1 (usage : Nibble) : Word :=
  ((usage.setWidth 64 &&& 0b1000) <<< 2) ||| (usage.setWidth 64 &&& 0b0111)

/-- R82: `modifier2`, the same with bit 4 set. -/
def kdfModifier2 (usage : Nibble) : Word := kdfModifier1 usage ||| 0b010000

/-- R91: bits `[bpb, 54]`, and bits `[56, 63]` when `tbi` is clear. -/
def pacMask (bpb : Nat) (tbi : Bool) : Word :=
  let low := onesBelow 55 &&& ~~~(onesBelow bpb)
  let high : Word := if tbi then 0 else 0xFF00000000000000
  low ||| high

/-- R100: `0b01` for an "A"-family key, `0b10` for a "B"-family key. -/
def errorCode (bKey : Bool) : Word := if bKey then 0b10 else 0b01

/-- R100, U9: the position of the error code's lower bit. -/
def errorLsb (C : Config) (tbi : Bool) : Nat := if tbi then C.errLsbTbi else C.errLsbNotbi

end Sys2Proof.Machine
end

