-- ==== Sys2Proof/Machine/Primitives.lean ====
section
/-!
DEFINITION. The seven block primitives (spec/40_block_primitives.md R53 to R66), each a total function of one Word and of
the configuration's tables. No request reaches them by themselves (R66).
-/

namespace Sys2Proof.Machine

/-- R54: `SBOX_INV[v]` is the index `i` with `SBOX[i] = v`. A table without such an index violates R7 (U11), and the 0
given for it is read by no valid configuration. DESIGN CHOICE, safe: notes/assumptions/10.md. -/
def sboxInv (C : Config) (v : Nibble) : Nibble :=
  ((List.finRange 16).find? fun i => C.sbox[i] == v).elim 0 fun i => BitVec.ofNat 4 i.val

/-- R57: `SR_INV[n]` is the position `i` with `SR[i] = n`. A table without such a position violates R7 (U11), as above. -/
def srInv (C : Config) (n : Fin 16) : Fin 16 :=
  ((List.finRange 16).find? fun i => C.sr[i] == n).elim 0 id

/-- R55. -/
def substitute (C : Config) (s : Word) : Word := ofNibbles fun n => C.sbox[(nib s n).toNat]

/-- R56. -/
def unsubstitute (C : Config) (s : Word) : Word := ofNibbles fun n => sboxInv C (nib s n)

/-- R58: output nibble `n` is input nibble `SR[n]`. -/
def permute (C : Config) (s : Word) : Word := ofNibbles fun n => nib s C.sr[n]

/-- R59. -/
def unpermute (C : Config) (s : Word) : Word := ofNibbles fun n => nib s (srInv C n)

/-- R60: the XOR of the rows whose input bit is set, input bits numbered from bit 63 down. -/
def diffuse (C : Config) (s : Word) : Word :=
  (List.finRange 64).foldl (fun t i => if s.getLsbD (63 - i.val) then t ^^^ C.mrow[i] else t) 0

/-- R62: first the diffusion, then the nibble permutation (C4). -/
def mix (C : Config) (s : Word) : Word := permute C (diffuse C s)

/-- R63. -/
def unmix (C : Config) (s : Word) : Word := diffuse C (unpermute C s)

end Sys2Proof.Machine
end

