-- ==== Sys2Proof/Machine/Tables.lean ====
section
/-!
DEFINITION. The hardware's configuration: the spec's default tables, "[from general knowledge, not in source]" (R54, R57,
R61, R71, D7), DOC's positions of the error code (R100), and the OPEN parameters of Sys2Proof/Config.lean.
PRESUMED, unsafe: notes/assumptions/3.md.
-/

namespace Sys2Proof.Machine

/-- R54. -/
def sboxDefault : Vector Nibble 16 :=
  #v[0xB, 0xF, 0x3, 0x2, 0xA, 0xC, 0x9, 0x1, 0x6, 0x7, 0x8, 0x0, 0xE, 0x5, 0xD, 0x4]

/-- R57. -/
def srDefault : Vector (Fin 16) 16 :=
  #v[0, 5, 10, 15, 4, 9, 14, 3, 8, 13, 2, 7, 12, 1, 6, 11]

/-- R61. -/
def mrowDefault : Vector Word 64 :=
  #v[0x0888000000000000, 0x4044000000000000, 0x2202000000000000, 0x1110000000000000,
     0x8880000000000000, 0x0444000000000000, 0x2022000000000000, 0x1101000000000000,
     0x8808000000000000, 0x4440000000000000, 0x0222000000000000, 0x1011000000000000,
     0x8088000000000000, 0x4404000000000000, 0x2220000000000000, 0x0111000000000000,
     0x0000888000000000, 0x0000044400000000, 0x0000202200000000, 0x0000110100000000,
     0x0000880800000000, 0x0000444000000000, 0x0000022200000000, 0x0000101100000000,
     0x0000808800000000, 0x0000440400000000, 0x0000222000000000, 0x0000011100000000,
     0x0000088800000000, 0x0000404400000000, 0x0000220200000000, 0x0000111000000000,
     0x0000000088800000, 0x0000000004440000, 0x0000000020220000, 0x0000000011010000,
     0x0000000088080000, 0x0000000044400000, 0x0000000002220000, 0x0000000010110000,
     0x0000000080880000, 0x0000000044040000, 0x0000000022200000, 0x0000000001110000,
     0x0000000008880000, 0x0000000040440000, 0x0000000022020000, 0x0000000011100000,
     0x0000000000000888, 0x0000000000004044, 0x0000000000002202, 0x0000000000001110,
     0x0000000000008880, 0x0000000000000444, 0x0000000000002022, 0x0000000000001101,
     0x0000000000008808, 0x0000000000004440, 0x0000000000000222, 0x0000000000001011,
     0x0000000000008088, 0x0000000000004404, 0x0000000000002220, 0x0000000000000111]

/-- R71. -/
def rcPrinceDefault : RoundConstantTable :=
  #v[0x0000000000000000, 0x13198A2E03707344, 0xA4093822299F31D0, 0x082EFA98EC4E6C89,
     0x452821E638D01377, 0xBE5466CF34E90C6C, 0x7EF84F78FD955CB1, 0x85840851F1AC43AA,
     0xC882D32F25323C54, 0x64A51195E0E3610D, 0xD3B5A399CA0C2399, 0xC0AC29B7C97C50DD]

/-- The configuration every operation runs with (R6, R22): constant, never written (R27). -/
def hardware : Config where
  sbox := sboxDefault
  sr := srDefault
  mrow := mrowDefault
  rcPrince := rcPrinceDefault
  rcApple := Config.openRcApple
  errLsbTbi := 52
  errLsbNotbi := 60
  usageCodes := Config.openUsageCodes
  latency := Config.openLatency

end Sys2Proof.Machine
end

