-- ==== Sys2Proof/Machine/Cipher.lean ====
section
/-!
DEFINITION. The PRINCE core permutation (spec/41_prince_core.md) and the PRINCE and Modified PRINCE ciphers
(spec/42_prince_cipher.md), with the operations PRINCE and MPRINCE.
-/

namespace Sys2Proof.Machine

/-- R67: the diffusion without the nibble permutation, between the S-box layer and its inverse. -/
def middle (C : Config) (s : Word) : Word := unsubstitute C (diffuse C (substitute C s))

/-- R68 step 2, one round: substitute, mix, XOR the round's constant, XOR the round key. -/
def forwardRound (C : Config) (rc : RoundConstantTable) (rk : Word) (s : Word) (r : Fin 12) : Word :=
  mix C (substitute C s) ^^^ rc[r] ^^^ rk

/-- R68 step 4, one round: XOR the round key, XOR the round's constant, unmix, unsubstitute. -/
def backwardRound (C : Config) (rc : RoundConstantTable) (rk : Word) (s : Word) (r : Fin 12) : Word :=
  unsubstitute C (unmix C (s ^^^ rk ^^^ rc[r]))

/-- R68, R69 `core`: the five steps, the twelve constants used once each in index order. -/
def princeCore (C : Config) (rc : RoundConstantTable) (s rk : Word) : Word :=
  let s1 := s ^^^ rk ^^^ rc[0]
  let s2 := ([1, 2, 3, 4, 5] : List (Fin 12)).foldl (forwardRound C rc rk) s1
  let s3 := middle C s2
  let s4 := ([6, 7, 8, 9, 10] : List (Fin 12)).foldl (backwardRound C rc rk) s3
  s4 ^^^ rc[11] ^^^ rk

/-- R73 `whitening_key`. -/
def whiteningKey (k0 : Word) : Word := ror1 k0 ^^^ (k0 >>> 63)

/-- R74 `prince`. -/
def prince (C : Config) (value k0 k1 : Word) (rc : RoundConstantTable) : Word :=
  princeCore C rc (value ^^^ k0) k1 ^^^ whiteningKey k0

/-- R75 `modified_prince`: always Apple's table, the modifier folded into the second key half. -/
def modifiedPrince (C : Config) (value k0 k1 modifier : Word) : Word :=
  prince C value k0 (k1 ^^^ modifier) C.rcApple

/-- R81 `MPRINCE_ZERO_VECTOR`: the value to pin once `RC_APPLE` is known. -/
def mprinceZeroVector (C : Config) : Word := modifiedPrince C 0 0 0 0

/-- R80 MPRINCE. -/
def execMprince (value k0 k1 modifier : Word) (s : State) : Host.Outcome State Fault Refusal :=
  respond (zext128 (modifiedPrince hardware value k0 k1 modifier)) s

/-- R79 PRINCE. -/
def execPrince (value k0 k1 : Word) (rc : RcTable) (s : State) : Host.Outcome State Fault Refusal :=
  respond (zext128 (prince hardware value k0 k1 (selectTable hardware rc))) s

end Sys2Proof.Machine
end

