-- ==== Sys2Proof/Machine/Kdf.lean ====
section
/-!
DEFINITION. The key-derivation function (spec/43_kdf.md) and the operation KDF. The derived Key goes to the caller; the
core keeps none (R26, R88).
-/

namespace Sys2Proof.Machine

/-- R83, R87: one chain, two `modified_prince` calls under one modifier, giving one half of the output Key. -/
def kdfHalf (C : Config) (ikeyHi ikeyLo dataHi dataLo modifier : Word) : Word :=
  let tmp := modifiedPrince C dataHi ikeyHi ikeyLo modifier
  modifiedPrince C (tmp ^^^ dataLo) ikeyHi ikeyLo modifier

/-- R83 `kdf`: the two chains differ only in the modifier; every usage code is accepted (R84). -/
def kdf (C : Config) (ikeyHi ikeyLo dataHi dataLo : Word) (usage : Nibble) : Key :=
  { hi := kdfHalf C ikeyHi ikeyLo dataHi dataLo (kdfModifier1 usage)
    lo := kdfHalf C ikeyHi ikeyLo dataHi dataLo (kdfModifier2 usage) }

/-- R86 KDF: the one operation whose response uses `r[127:64]`. -/
def execKdf (ikeyHi ikeyLo dataHi dataLo : Word) (usage : Nibble) (s : State) :
    Host.Outcome State Fault Refusal :=
  respond (keyBits (kdf hardware ikeyHi ikeyLo dataHi dataLo usage)) s

end Sys2Proof.Machine
end

