-- ==== Sys2Proof/Machine/Flags.lean ====
section
/-!
DEFINITION. The core has no flags (spec/10_state.md R15). What other hardware would hold in a flag is here: the poison
test on a pointer (spec/44_pac_datapath.md R95), and the in-band report of an authentication failure (R100,
spec/60_exceptions.md R110), which is data in the result and neither a flag nor an exception.
-/

namespace Sys2Proof.Machine

/-- R95 `top_bit`. -/
def topBit (tbi : Bool) : Nat := if tbi then 55 else 63

/-- R95 `ext_poisoned`: the bits `ptr[top_bit : bpb]`, bit `bpb` included (D8), are neither all 0 nor all 1; an empty
field is not poisoned (D9). -/
def extPoisoned (ptr : Word) (bpb : Nat) (tbi : Bool) : Bool :=
  let t := topBit tbi
  if bpb > t then false
  else
    let ext := ptr.extractLsb t bpb
    ext != 0 && ext != BitVec.allOnes _

/-- R100 `auth_fail`: both bits of the code field are replaced (D11), the others are kept. -/
def authFail (C : Config) (original : Word) (bKey tbi : Bool) : Word :=
  let lsb := errorLsb C tbi
  (original &&& ~~~((0b11 : Word) <<< lsb)) ||| (errorCode bKey <<< lsb)

/-- R110: the two bits a caller inspects to see a failure. -/
def failureBits (C : Config) (result : Word) (tbi : Bool) : BitVec 2 :=
  result.extractLsb' (errorLsb C tbi) 2

end Sys2Proof.Machine
end

