-- ==== Sys2Proof/Machine/Pac.lean ====
section
/-!
DEFINITION. The pointer-authentication datapath (spec/44_pac_datapath.md): Strip, AddPAC, Auth and the operations STRIP,
ADDPAC, AUTH. AddPAC and Auth are each written over the Word `p` that the cipher returns for the stripped pointer, as
the spec's examples are, and then with the cipher in its place. Nothing is validated (R107).
-/

namespace Sys2Proof.Machine

/-- R93 `strip`: the mask's bits become copies of bit 55. -/
def strip (ptr : Word) (bpb : Nat) (tbi : Bool) : Word :=
  let m := pacMask bpb tbi
  if ptr.getLsbD 55 then ptr ||| m else ptr &&& ~~~m

/-- R96 `pac_merge`: XOR under EnhancedPAC2, overwrite without. -/
def pacMerge (ptr pac m : Word) (ehp2 : Bool) : Word :=
  if ehp2 then ptr ^^^ (pac &&& m) else (ptr &&& ~~~m) ||| (pac &&& m)

/-- R96 steps 2 to 4, R112: the code to merge, given the cipher output `p`. A poisoned pointer gets code 0 under
EnhancedPAC; else, without EnhancedPAC2, bit `top_bit - 1` of `p` is flipped. -/
def signCode (p ptr : Word) (bpb : Nat) (tbi ehp ehp2 : Bool) : Word :=
  let poisoned := extPoisoned ptr bpb tbi
  if poisoned && ehp then 0
  else if poisoned && !ehp2 then p ^^^ bit (topBit tbi - 1)
  else p

/-- R96 steps 2 to 5, given the cipher output `p`: the merge acts on the original pointer. -/
def addPacWith (p ptr : Word) (bpb : Nat) (tbi ehp ehp2 : Bool) : Word :=
  pacMerge ptr (signCode p ptr bpb tbi ehp ehp2) (pacMask bpb tbi) ehp2

/-- R96 `add_pac`: the cipher input is the stripped pointer. -/
def addPac (C : Config) (ptr kHi kLo modifier : Word) (bpb : Nat) (tbi ehp ehp2 : Bool) : Word :=
  addPacWith (modifiedPrince C (strip ptr bpb tbi) kHi kLo modifier) ptr bpb tbi ehp ehp2

/-- R99 steps 2 and 3, R112, given the cipher output `p`: under EnhancedPAC2 there is no comparison and no error code. -/
def authWith (C : Config) (p ptr : Word) (bKey : Bool) (bpb : Nat) (tbi ehp2 : Bool) : Word :=
  let m := pacMask bpb tbi
  let original := strip ptr bpb tbi
  if ehp2 then ptr ^^^ (p &&& m)
  else if ptr &&& m = p &&& m then original
  else authFail C original bKey tbi

/-- R99 `auth`. -/
def auth (C : Config) (ptr kHi kLo : Word) (bKey : Bool) (modifier : Word) (bpb : Nat) (tbi ehp2 : Bool) : Word :=
  authWith C (modifiedPrince C (strip ptr bpb tbi) kHi kLo modifier) ptr bKey bpb tbi ehp2

/-- R104 STRIP. -/
def execStrip (ptr : Word) (bpb : Nat) (tbi : Bool) (s : State) : Host.Outcome State Fault Refusal :=
  respond (zext128 (strip ptr bpb tbi)) s

/-- R105 ADDPAC. -/
def execAddpac (ptr kHi kLo modifier : Word) (bpb : Nat) (tbi ehp ehp2 : Bool) (s : State) :
    Host.Outcome State Fault Refusal :=
  respond (zext128 (addPac hardware ptr kHi kLo modifier bpb tbi ehp ehp2)) s

/-- R106 AUTH: a failure is data in the response (R110), never an exception (R109). -/
def execAuth (ptr kHi kLo : Word) (bKey : Bool) (modifier : Word) (bpb : Nat) (tbi ehp2 : Bool) (s : State) :
    Host.Outcome State Fault Refusal :=
  respond (zext128 (auth hardware ptr kHi kLo bKey modifier bpb tbi ehp2)) s

end Sys2Proof.Machine
end

