-- ==== Sys2Proof/Machine/Dispatch.lean ====
section
/-!
DEFINITION. exec: one arm for each instruction (spec/30_encoding.md R40).
-/

namespace Sys2Proof.Machine

def exec (i : Instr) (s : State) : Host.Outcome State Fault Refusal :=
  match i with
  | .strip ptr bpb tbi => Sys2Proof.Machine.execStrip ptr bpb tbi s
  | .addpac ptr kHi kLo modifier bpb tbi ehp ehp2 => Sys2Proof.Machine.execAddpac ptr kHi kLo modifier bpb tbi ehp ehp2 s
  | .auth ptr kHi kLo bKey modifier bpb tbi ehp2 => Sys2Proof.Machine.execAuth ptr kHi kLo bKey modifier bpb tbi ehp2 s
  | .kdf ikeyHi ikeyLo dataHi dataLo usage => Sys2Proof.Machine.execKdf ikeyHi ikeyLo dataHi dataLo usage s
  | .mprince value k0 k1 modifier => Sys2Proof.Machine.execMprince value k0 k1 modifier s
  | .prince value k0 k1 rc => Sys2Proof.Machine.execPrince value k0 k1 rc s

end Sys2Proof.Machine
end

