-- ==== Sys2Proof/Machine/Step.lean ====
section
/-!
DEFINITION. One step of the machine: the core serves the next request (spec/10_state.md R24), or waits for one.
-/

namespace Sys2Proof.Machine

/-- R24, R51: read the whole request, decode it, produce the whole response, or refuse the request (R46). -/
def step (s : State) : Host.Outcome State Fault Refusal :=
  match takeRequest s with
  | none => idle s
  | some (q, s') =>
    match decode q with
    | .ok i => exec i s'
    | .error e => refuseRequest e s'

/-- The request whose bits are `w` placed as the next one the core reads. It stands for the caller's issuing of it, from
outside the machine. DESIGN CHOICE, unsafe: notes/assumptions/5.md. -/
def State.withFetchWord (s : State) (nbits w : Nat) : State := issueNext (requestOfBits nbits w) s

end Sys2Proof.Machine
end

