-- ==== Sys2Proof/Laws/Decode.lean ====
section
/-!
SUPPORT. What each field accessor reads from an assembled control word and Key port.
-/

namespace Sys2Proof

theorem ctlOp_packCtl (op : BitVec 3) (tbi ehp ehp2 bKey rcSel : Bool) (bpb : Nat) (usage : Nibble) :
    ctlOp (packCtl op tbi ehp ehp2 bKey rcSel bpb usage) = op := by
  apply BitVec.eq_of_getLsbD_eq
  intro i hi
  simp only [ctlOp, packCtl, BitVec.getLsbD_extractLsb', BitVec.getLsbD_append, hi]
  simp [hi]

theorem ctlTbi_packCtl (op : BitVec 3) (tbi ehp ehp2 bKey rcSel : Bool) (bpb : Nat) (usage : Nibble) :
    ctlTbi (packCtl op tbi ehp ehp2 bKey rcSel bpb usage) = tbi := by
  simp only [ctlTbi, packCtl, BitVec.getLsbD_append]
  simp

theorem ctlEhp_packCtl (op : BitVec 3) (tbi ehp ehp2 bKey rcSel : Bool) (bpb : Nat) (usage : Nibble) :
    ctlEhp (packCtl op tbi ehp ehp2 bKey rcSel bpb usage) = ehp := by
  simp only [ctlEhp, packCtl, BitVec.getLsbD_append]
  simp

theorem ctlEhp2_packCtl (op : BitVec 3) (tbi ehp ehp2 bKey rcSel : Bool) (bpb : Nat) (usage : Nibble) :
    ctlEhp2 (packCtl op tbi ehp ehp2 bKey rcSel bpb usage) = ehp2 := by
  simp only [ctlEhp2, packCtl, BitVec.getLsbD_append]
  simp

theorem ctlBKey_packCtl (op : BitVec 3) (tbi ehp ehp2 bKey rcSel : Bool) (bpb : Nat) (usage : Nibble) :
    ctlBKey (packCtl op tbi ehp ehp2 bKey rcSel bpb usage) = bKey := by
  simp only [ctlBKey, packCtl, BitVec.getLsbD_append]
  simp

theorem ctlRcSel_packCtl (op : BitVec 3) (tbi ehp ehp2 bKey rcSel : Bool) (bpb : Nat) (usage : Nibble) :
    ctlRcSel (packCtl op tbi ehp ehp2 bKey rcSel bpb usage) = if rcSel then .apple else .prince := by
  simp only [ctlRcSel, packCtl, BitVec.getLsbD_append]
  simp

theorem ctlBpb_packCtl (op : BitVec 3) (tbi ehp ehp2 bKey rcSel : Bool) (bpb : Nat) (usage : Nibble) :
    ctlBpb (packCtl op tbi ehp ehp2 bKey rcSel bpb usage) = bpb % 64 := by
  have h : (packCtl op tbi ehp ehp2 bKey rcSel bpb usage).extractLsb' 8 6 = BitVec.ofNat 6 bpb := by
    apply BitVec.eq_of_getLsbD_eq
    intro i hi
    simp only [packCtl, BitVec.getLsbD_extractLsb', BitVec.getLsbD_append, hi]
    interval_cases i <;> simp
  simp [ctlBpb, h]

theorem ctlUsage_packCtl (op : BitVec 3) (tbi ehp ehp2 bKey rcSel : Bool) (bpb : Nat) (usage : Nibble) :
    ctlUsage (packCtl op tbi ehp ehp2 bKey rcSel bpb usage) = usage := by
  apply BitVec.eq_of_getLsbD_eq
  intro i hi
  simp only [ctlUsage, packCtl, BitVec.getLsbD_extractLsb', BitVec.getLsbD_append, hi]
  interval_cases i <;> simp

theorem keyPortHi_append (hi lo : Word) : keyPortHi (hi ++ lo) = hi := by
  apply BitVec.eq_of_getLsbD_eq
  intro i hi'
  simp only [keyPortHi, BitVec.getLsbD_extractLsb', BitVec.getLsbD_append, hi']
  simp

theorem keyPortLo_append (hi lo : Word) : keyPortLo (hi ++ lo) = lo := by
  apply BitVec.eq_of_getLsbD_eq
  intro i hi'
  simp only [keyPortLo, BitVec.getLsbD_extractLsb', BitVec.getLsbD_append, hi']
  simp [hi']

end Sys2Proof
end

