-- ==== Sys2Proof/Laws/PerInstr.lean ====
section
/-!
SUPPORT. The per-instruction family OpcodeRow: an encoded instruction's control word matches its row of
spec/opcode_table.json (match and mask over the 18-bit `ctl`, R40).
-/

namespace Sys2Proof.Laws.OpcodeRow

/-- The row's match value, under the mask `0x00007`. -/
def rowMatch : Instr → BitVec 18
  | .strip _ _ _ => 0x00000
  | .addpac _ _ _ _ _ _ _ _ => 0x00001
  | .auth _ _ _ _ _ _ _ _ => 0x00002
  | .kdf _ _ _ _ _ => 0x00003
  | .mprince _ _ _ _ => 0x00004
  | .prince _ _ _ _ => 0x00005

/-- The encoded control word under the table's mask is the row's match value. -/
def Statement (i : Instr) : Prop := (encode i).ctl &&& 0x00007 = rowMatch i

/-- The mask keeps the operation code of an assembled control word. -/
theorem packCtl_masked (op : BitVec 3) (tbi ehp ehp2 bKey rcSel : Bool) (bpb : Nat) (usage : Nibble) :
    packCtl op tbi ehp ehp2 bKey rcSel bpb usage &&& 0x00007 = op.setWidth 18 := by
  have h7 : ∀ j, (0x00007 : BitVec 18).getLsbD j = decide (j < 3) := by
    intro j
    by_cases h : j < 18
    · interval_cases j <;> rfl
    · rw [BitVec.getLsbD_of_ge _ j (by omega)]; simp; omega
  apply BitVec.eq_of_getLsbD_eq
  intro j hj
  rw [BitVec.getLsbD_and, h7, BitVec.getLsbD_setWidth]
  by_cases h : j < 3
  · simp only [packCtl, BitVec.getLsbD_append]
    simp [h, hj]
  · simp [h, BitVec.getLsbD_of_ge op j (by omega)]

theorem strip (ptr : Word) (bpb : Nat) (tbi : Bool) : Statement (.strip ptr bpb tbi) :=
  packCtl_masked _ _ _ _ _ _ _ _

theorem addpac (ptr kHi kLo modifier : Word) (bpb : Nat) (tbi ehp ehp2 : Bool) :
    Statement (.addpac ptr kHi kLo modifier bpb tbi ehp ehp2) := packCtl_masked _ _ _ _ _ _ _ _

theorem auth (ptr kHi kLo : Word) (bKey : Bool) (modifier : Word) (bpb : Nat) (tbi ehp2 : Bool) :
    Statement (.auth ptr kHi kLo bKey modifier bpb tbi ehp2) := packCtl_masked _ _ _ _ _ _ _ _

theorem kdf (ikeyHi ikeyLo dataHi dataLo : Word) (usage : Nibble) :
    Statement (.kdf ikeyHi ikeyLo dataHi dataLo usage) := packCtl_masked _ _ _ _ _ _ _ _

theorem mprince (value k0 k1 modifier : Word) : Statement (.mprince value k0 k1 modifier) :=
  packCtl_masked _ _ _ _ _ _ _ _

theorem prince (value k0 k1 : Word) (rc : RcTable) : Statement (.prince value k0 k1 rc) :=
  packCtl_masked _ _ _ _ _ _ _ _

end Sys2Proof.Laws.OpcodeRow
end

