-- ==== Sys2Proof/Machine/Answer.lean ====
section
/-!
DEFINITION. The spec's own pseudocode of the whole core at the request level (spec/30_encoding.md R51), as a function of
one request and of the constant tables and of nothing else (spec/10_state.md R19). The machine does not use it: claims
compare the machine with it.
-/

namespace Sys2Proof.Machine

/-- R51 `step(req)`: the response of a request, and `refuse(reserved_op)` for the two reserved operation codes. The form
of the refusal, a mark in the run's replies, is the model's. DEDUCED, unsafe: notes/assumptions/6.md. -/
def answer (q : Request) : Reply :=
  let tbi := q.ctl[3]
  let ehp := q.ctl[4]
  let ehp2 := q.ctl[5]
  let bKey := q.ctl[6]
  let rcSel := q.ctl[7]
  let bpb := (q.ctl.extractLsb 13 8).toNat
  let usage := q.ctl.extractLsb 17 14
  let kHi : Word := q.k.extractLsb 127 64
  let kLo : Word := q.k.extractLsb 63 0
  match (q.ctl.extractLsb 2 0).toNat with
  | 0 => .response (zext128 (strip q.a bpb tbi))
  | 1 => .response (zext128 (addPac hardware q.a kHi kLo q.b bpb tbi ehp ehp2))
  | 2 => .response (zext128 (auth hardware q.a kHi kLo bKey q.b bpb tbi ehp2))
  | 3 => .response (keyBits (kdf hardware kHi kLo q.a q.b usage))
  | 4 => .response (zext128 (modifiedPrince hardware q.a kHi kLo q.b))
  | 5 => .response (zext128 (prince hardware q.a kHi kLo (if rcSel then hardware.rcApple else hardware.rcPrince)))
  | _ => .refused (.reservedOp (q.ctl.extractLsb 2 0))

end Sys2Proof.Machine
end

