-- ==== Sys2Proof/Safety.lean ====
section
/-!
DEFINITION. The terms the claims use: which requests the core accepts, which configurations the rules are stated for
(spec/00_scope.md R7), which states a run of the spec can reach (spec/70_reset_and_hazards.md R131), and which inputs of
a request its operation uses (spec/30_encoding.md R41, R42).
-/

namespace Sys2Proof.Machine

/-- R46: the request selects an operation. A run whose requests are all accepted is a safe run: none is refused. -/
abbrev Accepted (q : Request) : Prop := (ctlOp q.ctl).toNat ≤ 5

/-- R131, R19: each request served got what R51 gives it, its response or its refusal, in the order of service. -/
abbrev Answered (s : State) : Prop := s.replies = s.served.map answer

/-- R7, R125: the static obligations on the tables. The lengths are in their types; the inverse tables are derived (R54,
R57), so that injectivity of `SBOX` and `SR` is all they need. -/
structure TablesValid (C : Config) : Prop where
  sbox_injective : Function.Injective fun v : Nibble => C.sbox[v.toNat]
  sr_injective : Function.Injective fun n : Fin 16 => C.sr[n]
  diffuse_involutive : Function.Involutive (diffuse C)

/-- R70: the reflection condition, `RC[i] ^ RC[11 - i] = ALPHA` for every index. -/
def Reflective (rc : RoundConstantTable) (alpha : Word) : Prop :=
  ∀ i : Fin 12, rc[i] ^^^ rc[i.rev] = alpha

/-- Glossary, R94 (e): all bits from `bpb` up to bit 55, and up to bit 63 when `tbi` is clear, are copies of bit 55. -/
def Canonical (ptr : Word) (bpb : Nat) (tbi : Bool) : Prop :=
  ∀ j, bpb ≤ j → j ≤ topBit tbi → ptr.getLsbD j = ptr.getLsbD 55

/-- R41: the two requests select one operation and agree on every port and field that it uses. -/
abbrev SameUsedInputs (q q' : Request) : Prop :=
  ctlOp q.ctl = ctlOp q'.ctl ∧ q.a = q'.a ∧
  ((ctlOp q.ctl).toNat ∈ [1, 2, 3, 4] → q.b = q'.b) ∧
  ((ctlOp q.ctl).toNat ∈ [1, 2, 3, 4, 5] → q.k = q'.k) ∧
  ((ctlOp q.ctl).toNat ∈ [0, 1, 2] → ctlBpb q.ctl = ctlBpb q'.ctl ∧ ctlTbi q.ctl = ctlTbi q'.ctl) ∧
  ((ctlOp q.ctl).toNat = 1 → ctlEhp q.ctl = ctlEhp q'.ctl) ∧
  ((ctlOp q.ctl).toNat ∈ [1, 2] → ctlEhp2 q.ctl = ctlEhp2 q'.ctl) ∧
  ((ctlOp q.ctl).toNat = 2 → ctlBKey q.ctl = ctlBKey q'.ctl) ∧
  ((ctlOp q.ctl).toNat = 3 → ctlUsage q.ctl = ctlUsage q'.ctl) ∧
  ((ctlOp q.ctl).toNat = 5 → ctlRcSel q.ctl = ctlRcSel q'.ctl)

end Sys2Proof.Machine
end

