-- ==== Sys2Proof/Certificates/Slice0/Obligations.lean ====
section
/-!
DEFINITION. The statements for the provers, in the order of OBLIGATIONS.json: requests and their encoding, what a step
does, what each operation answers, runs, and the laws of the functions behind the answers. The machine has no
register, flag or memory (R13 to R19, R28), so the frame of an operation is `requests` and `served`, unchanged, and
`replies`, extended at its end: each operation's statement gives the whole next state.
-/

open Sys2Proof Sys2Proof.Machine

/-! ## Requests and their encoding -/

/-- R38, R40, R41, R43: every well-formed instruction is read back from its own request. -/
def Obligations.DecodeOfEncodeIsTheInstruction : Prop :=
  ∀ i : Instr, WellFormed i = true → decode (encode i) = .ok i

/-- R40, R46, R51: `op` alone decides; six codes give a well-formed instruction of that code, two are refused. -/
def Obligations.DecodingIsTotalAndByOpAlone : Prop :=
  ∀ q : Request,
    ((ctlOp q.ctl).toNat ≤ 5 → ∃ i, decode q = .ok i ∧ WellFormed i = true ∧ opOf i = ctlOp q.ctl) ∧
    (6 ≤ (ctlOp q.ctl).toNat → decode q = .error (.reservedOp (ctlOp q.ctl)))

/-- R38: the control word as a number. -/
def Obligations.ControlWordIsTheNumberOfItsFields : Prop :=
  ∀ (op : BitVec 3) (tbi ehp ehp2 bKey rcSel : Bool) (bpb : Nat) (usage : Nibble), bpb ≤ 63 →
    (packCtl op tbi ehp ehp2 bKey rcSel bpb usage).toNat =
      op.toNat ||| tbi.toNat <<< 3 ||| ehp.toNat <<< 4 ||| ehp2.toNat <<< 5 ||| bKey.toNat <<< 6 |||
        rcSel.toNat <<< 7 ||| bpb <<< 8 ||| usage.toNat <<< 14

/-- R52, an inference the spec marks as its own ("derived: from rule R38, rule R40"): the two worked requests. -/
def Obligations.WorkedRequestEncodings : Prop :=
  (∀ ptr kHi kLo modifier : Word,
    encode (.addpac ptr kHi kLo modifier 47 true false false) =
      { ctl := 0x02F09, a := ptr, b := modifier, k := kHi ++ kLo }) ∧
  (∀ ikeyHi ikeyLo dataHi dataLo : Word,
    encode (.kdf ikeyHi ikeyLo dataHi dataLo 9) =
      { ctl := 0x24003, a := dataHi, b := dataLo, k := ikeyHi ++ ikeyLo })

/-- R38, R40 and 95_test_vectors.md section 9: control words written out by the spec decode to the operations they
stand for. The 24 bits of a row are the model's layout, notes/assumptions/5.md; only the control word's 18 are set. -/
def Obligations.WrittenOutControlWordsDecode : Prop :=
  decodeTableWord 24 0x02F08 = some (.strip 0 47 true) ∧
  decodeTableWord 24 0x02F39 = some (.addpac 0 0 0 0 47 true true true) ∧
  decodeTableWord 24 0x02742 = some (.auth 0 0 0 true 0 39 false false) ∧
  decodeTableWord 24 0x24003 = some (.kdf 0 0 0 0 9) ∧
  decodeTableWord 24 0x00004 = some (.mprince 0 0 0 0) ∧
  decodeTableWord 24 0x3FF7D = some (.prince 0 0 0 .prince) ∧
  decodeTableWord 24 0x00085 = some (.prince 0 0 0 .apple) ∧
  decodeTableWord 24 0x00006 = none ∧
  decodeTableWord 24 0x3FFFF = none

/-- R42: two requests that agree on the ports and fields their operation uses get the same response in every state. -/
def Obligations.IgnoredInputsDoNotInfluenceTheResponse : Prop :=
  ∀ q q' : Request, Accepted q → SameUsedInputs q q' →
    ∃ r : Response, ∀ s : State,
      step (issueNext q s) = .next { s with served := s.served ++ [q], replies := s.replies ++ [.response r] } ∧
      step (issueNext q' s) = .next { s with served := s.served ++ [q'], replies := s.replies ++ [.response r] }

/-! ## What a step does -/

/-- R24, R51: a step whose next request decodes is exec of the instruction, with the request moved to the served ones. -/
def Obligations.StepRunsTheDecodedInstruction : Prop :=
  ∀ (s : State) (q : Request) (rest : List Request) (i : Instr),
    s.requests = q :: rest → decode q = .ok i →
    step s = exec i { s with requests := rest, served := s.served ++ [q] }

/-- The model's choice of notes/assumptions/4.md: with no request issued, a step changes nothing. -/
def Obligations.StepWithoutRequestChangesNothing : Prop :=
  ∀ s : State, s.requests = [] → step s = .next s

/-- Each step gives the request it reads what the spec's request-level pseudocode (R51) gives it, a response or, by R46, a
refusal, and changes nothing else. That for `op` 6 and 7 the step answers a next state, with the refusal entered as a mark
in `replies` and the run going on, is no rule of the spec: it is read from R35, R109 and R131
(notes/assumptions/6.md). -/
def Obligations.StepRefinesRequestPseudocode : Prop :=
  ∀ (s : State) (q : Request) (rest : List Request), s.requests = q :: rest →
    step s = .next { requests := rest, served := s.served ++ [q], replies := s.replies ++ [answer q] }

/-- R46: a request is refused, with its code named, exactly where its `op` is 6 or 7; any other request gets a response.
That the run goes on past a refusal is read from R35 (notes/assumptions/6.md). -/
def Obligations.OnlyReservedCodesAreRefused : Prop :=
  ∀ (s : State) (q : Request) (rest : List Request), s.requests = q :: rest →
    ∃ x : Reply, step s = .next { requests := rest, served := s.served ++ [q], replies := s.replies ++ [x] } ∧
      ((ctlOp q.ctl).toNat = 6 ∨ (ctlOp q.ctl).toNat = 7 → x = .refused (.reservedOp (ctlOp q.ctl))) ∧
      (¬ ((ctlOp q.ctl).toNat = 6 ∨ (ctlOp q.ctl).toNat = 7) → ∃ r : Response, x = .response r)

/-- R109: every operation answers on every state and changes nothing but the replies; no step faults; a request whose
code is not reserved is always answered. -/
def Obligations.EveryOperationIsTotal : Prop :=
  (∀ (i : Instr) (s : State), ∃ r : Response, exec i s = .next { s with replies := s.replies ++ [.response r] }) ∧
  (∀ (s : State) (f : Fault), step s ≠ .fault f) ∧
  (∀ (s : State) (q : Request) (rest : List Request), s.requests = q :: rest → (ctlOp q.ctl).toNat ≤ 5 →
    ∃ r : Response,
      step s = .next { requests := rest, served := s.served ++ [q], replies := s.replies ++ [.response r] })

/-- R19, R35 (a): what a request gets is fixed by the request, whatever came before and whatever is still waiting; an
accepted request gets a response. That requests behind a refused one are served: notes/assumptions/6.md. -/
def Obligations.ResponseIsAFunctionOfTheRequest : Prop :=
  ∀ q : Request, ∃ x : Reply, (Accepted q → ∃ r : Response, x = .response r) ∧
    ∀ s : State,
      step (issueNext q s) = .next { s with served := s.served ++ [q], replies := s.replies ++ [x] }

/-- R35: a request issued behind others does not disturb the step that serves the first of them, refused or not
(notes/assumptions/6.md). -/
def Obligations.IssuingMoreRequestsDoesNotDisturbAStep : Prop :=
  ∀ (s : State) (q : Request), s.requests ≠ [] →
    ∃ t : State, step s = .next t ∧ step (issue q s) = .next (issue q t)

/-! ## What each operation answers -/

/-- R91, R93, R39: STRIP copies bit 55 into the masked bits and keeps every other bit; `r[127:64] = 0`. -/
def Obligations.StripResponseBits : Prop :=
  ∀ (ptr : Word) (bpb : Nat) (tbi : Bool) (s : State), ∃ r : Response,
    exec (.strip ptr bpb tbi) s = .next { s with replies := s.replies ++ [.response r] } ∧
    ∀ j, r.getLsbD j =
      if j < 64 then
        if (bpb ≤ j ∧ j ≤ 54) ∨ (tbi = false ∧ 56 ≤ j) then ptr.getLsbD 55 else ptr.getLsbD j
      else false

/-- R95, R96, R77: ADDPAC by its five steps, bit by bit. `p` is the cipher's output for the stripped pointer, `code` the
code that steps 3 and 4 make of it, and `poisoned` says that two bits of the extension field differ. -/
def Obligations.AddPacResponseBits : Prop :=
  ∀ (ptr kHi kLo modifier : Word) (bpb : Nat) (tbi ehp ehp2 : Bool) (s : State),
    let p := prince hardware (strip ptr bpb tbi) kHi (kLo ^^^ modifier) Config.openRcApple
    let top := if tbi then 55 else 63
    let poisoned := ∃ j k, bpb ≤ j ∧ j ≤ top ∧ bpb ≤ k ∧ k ≤ top ∧ ptr.getLsbD j ≠ ptr.getLsbD k
    ∃ (r : Response) (code : Word),
      exec (.addpac ptr kHi kLo modifier bpb tbi ehp ehp2) s = .next { s with replies := s.replies ++ [.response r] } ∧
      (poisoned → ehp = true → code = 0) ∧
      (poisoned → ehp = false → ehp2 = false → code = p ^^^ BitVec.twoPow 64 (top - 1)) ∧
      (poisoned → ehp = false → ehp2 = true → code = p) ∧
      (¬ poisoned → code = p) ∧
      ∀ j, r.getLsbD j =
        if j < 64 then
          if (bpb ≤ j ∧ j ≤ 54) ∨ (tbi = false ∧ 56 ≤ j) then
            if ehp2 then ptr.getLsbD j ^^ code.getLsbD j else code.getLsbD j
          else ptr.getLsbD j
        else false

/-- R99, R100, R77: AUTH by its three steps, bit by bit. `masked j` says that bit `j` belongs to the code field. -/
def Obligations.AuthResponseBits : Prop :=
  ∀ (ptr kHi kLo : Word) (bKey : Bool) (modifier : Word) (bpb : Nat) (tbi ehp2 : Bool) (s : State),
    let original := strip ptr bpb tbi
    let p := prince hardware original kHi (kLo ^^^ modifier) Config.openRcApple
    let masked := fun j => (bpb ≤ j ∧ j ≤ 54) ∨ (tbi = false ∧ 56 ≤ j ∧ j ≤ 63)
    let high := if tbi then 53 else 61
    ∃ w : Word,
      exec (.auth ptr kHi kLo bKey modifier bpb tbi ehp2) s =
        .next { s with replies := s.replies ++ [.response (w.setWidth 128)] } ∧
      (ehp2 = true → ∀ j, (masked j → w.getLsbD j = (ptr.getLsbD j ^^ p.getLsbD j)) ∧
        (¬ masked j → w.getLsbD j = ptr.getLsbD j)) ∧
      (ehp2 = false → (∀ j, masked j → ptr.getLsbD j = p.getLsbD j) → w = original) ∧
      (ehp2 = false → (∃ j, masked j ∧ ptr.getLsbD j ≠ p.getLsbD j) →
        w.getLsbD high = bKey ∧ w.getLsbD (high - 1) = !bKey ∧
        ∀ j, j ≠ high → j ≠ high - 1 → w.getLsbD j = original.getLsbD j)

/-- R82, R83, R86: KDF by its four lines, the modifiers as the numbers of the rule's table. -/
def Obligations.KdfResponseChains : Prop :=
  ∀ (ikeyHi ikeyLo dataHi dataLo : Word) (usage : Nibble) (s : State),
    let m1 := BitVec.ofNat 64 (0x20 * (usage.toNat / 8) + usage.toNat % 8)
    let m2 := BitVec.ofNat 64 (0x20 * (usage.toNat / 8) + 0x10 + usage.toNat % 8)
    let cipher := fun (x m : Word) => prince hardware x ikeyHi (ikeyLo ^^^ m) Config.openRcApple
    let tmp1 := cipher dataHi m1
    let okeyHi := cipher (tmp1 ^^^ dataLo) m1
    let tmp2 := cipher dataHi m2
    let okeyLo := cipher (tmp2 ^^^ dataLo) m2
    exec (.kdf ikeyHi ikeyLo dataHi dataLo usage) s =
      .next { s with replies := s.replies ++ [.response (okeyHi ++ okeyLo)] }

/-- R73, R74, R75, R80: MPRINCE runs the core with Apple's table, between the two whitenings. -/
def Obligations.MprinceResponse : Prop :=
  ∀ (value k0 k1 modifier : Word) (s : State), ∃ k0' : Word,
    (k0'.getLsbD 63 = k0.getLsbD 0 ∧ k0'.getLsbD 0 = (k0.getLsbD 1 ^^ k0.getLsbD 63) ∧
      ∀ i, 1 ≤ i → i ≤ 62 → k0'.getLsbD i = k0.getLsbD (i + 1)) ∧
    exec (.mprince value k0 k1 modifier) s =
      .next { s with replies := s.replies ++
        [.response ((princeCore hardware Config.openRcApple (value ^^^ k0) (k1 ^^^ modifier) ^^^ k0').setWidth 128)] }

/-- R73, R74, R79: PRINCE runs the core with the table its selector names, between the two whitenings. That `RC_PRINCE` is
`rcPrinceDefault` is the model's choice of general knowledge, notes/assumptions/3.md. -/
def Obligations.PrinceResponse : Prop :=
  ∀ (value k0 k1 : Word) (rc : RcTable) (s : State), ∃ (k0' : Word) (table : RoundConstantTable),
    (k0'.getLsbD 63 = k0.getLsbD 0 ∧ k0'.getLsbD 0 = (k0.getLsbD 1 ^^ k0.getLsbD 63) ∧
      ∀ i, 1 ≤ i → i ≤ 62 → k0'.getLsbD i = k0.getLsbD (i + 1)) ∧
    (rc = .prince → table = rcPrinceDefault) ∧ (rc = .apple → table = Config.openRcApple) ∧
    exec (.prince value k0 k1 rc) s =
      .next { s with replies := s.replies ++
        [.response ((princeCore hardware table (value ^^^ k0) k1 ^^^ k0').setWidth 128)] }

/-- R74's examples: PRINCE with the default tables gives the five published vectors. The tables are general knowledge
(notes/assumptions/3.md). -/
def Obligations.PublishedPrinceVectors : Prop :=
  prince hardware 0x0000000000000000 0x0000000000000000 0x0000000000000000 rcPrinceDefault = 0x818665AA0D02DFDA ∧
  prince hardware 0xFFFFFFFFFFFFFFFF 0x0000000000000000 0x0000000000000000 rcPrinceDefault = 0x604AE6CA03C20ADA ∧
  prince hardware 0x0000000000000000 0xFFFFFFFFFFFFFFFF 0x0000000000000000 rcPrinceDefault = 0x9FB51935FC3DF524 ∧
  prince hardware 0x0000000000000000 0x0000000000000000 0xFFFFFFFFFFFFFFFF rcPrinceDefault = 0x78A54CBE737BB7EF ∧
  prince hardware 0x0123456789ABCDEF 0x0000000000000000 0xFEDCBA9876543210 rcPrinceDefault = 0xAE25AD3CA8FA9CCF

/-- R50: a pseudo-operation and its expansion. The MPRINCE request and the PRINCE request with the modifier folded into
the Key and `rc_sel` set get the same response; `mix` and `unmix` are the compositions. -/
def Obligations.PseudoOperationsExpand : Prop :=
  (∀ q q' : Request, ctlOp q.ctl = 4 → ctlOp q'.ctl = 5 → ctlRcSel q'.ctl = .apple → q'.a = q.a →
    q'.k = keyPortHi q.k ++ (keyPortLo q.k ^^^ q.b) →
    ∃ r : Response, ∀ s : State,
      step (issueNext q s) = .next { s with served := s.served ++ [q], replies := s.replies ++ [.response r] } ∧
      step (issueNext q' s) = .next { s with served := s.served ++ [q'], replies := s.replies ++ [.response r] }) ∧
  (∀ (C : Config) (value k0 k1 modifier : Word),
    modifiedPrince C value k0 k1 modifier = prince C value k0 (k1 ^^^ modifier) C.rcApple) ∧
  (∀ (C : Config) (x : Word), mix C x = permute C (diffuse C x) ∧ unmix C x = diffuse C (unpermute C x))

/-- R81: the value to pin is the core's own, a function of `RC_APPLE` and the block tables alone. -/
def Obligations.PinnedVectorIsTheCoreOnZero : Prop :=
  ∀ s : State,
    exec (.mprince 0 0 0 0) s =
      .next { s with replies := s.replies ++
        [.response ((princeCore hardware Config.openRcApple 0 0).setWidth 128)] } ∧
    mprinceZeroVector hardware = princeCore hardware Config.openRcApple 0 0

/-! ## Runs -/

/-- R131, R19: every step keeps the run answered as R51 answers it, each request read having its response or refusal. That
a refusal is a mark in the run, which goes on behind it, is read from R35 (notes/assumptions/6.md). -/
def Obligations.StepKeepsTheRunAnswered : Prop :=
  ∀ s t : State, Answered s → step s = .next t → Answered t

/-- The state after reset is the empty run, which is answered. The spec's core has no state to reset (R23, R123); the three
fields and their being empty are the model's choice, notes/assumptions/7.md. -/
def Obligations.ResetIsTheEmptyRun : Prop :=
  State.reset = { requests := [], served := [], replies := [] } ∧ Answered State.reset

/-- R35 (b), R109: a run never stops, whatever its requests: as many steps as there are requests read as many of them.
That it goes on past a refusal is read from R35 (notes/assumptions/6.md). R131 ends the run when no request is left; that
further steps change nothing is the model's choice, notes/assumptions/4.md. -/
def Obligations.RunsNeverStop : Prop :=
  ∀ (n : Nat) (s : State), ∃ t : State, Sys2Proof.core.run n s = .next t ∧ t.requests = s.requests.drop n ∧
    t.served = s.served ++ s.requests.take n ∧ (s.requests.length ≤ n → step t = .next t)

/-- R24, R51, R131: after as many steps as there are requests, each has got what R51 gives it, also behind a refused one
(notes/assumptions/6.md). That they are served one at a time, in the order of issue, is the model's choice, notes/assumptions/8.md. -/
def Obligations.RunAnswersEveryRequestInOrder : Prop :=
  ∀ s : State, ∃ t : State, Sys2Proof.core.run s.requests.length s = .next t ∧ t.requests = [] ∧
    t.served = s.served ++ s.requests ∧ t.replies = s.replies ++ s.requests.map answer

/-- R35 (a), (b): in a run of any set of requests, in any order, each gets what it gets when executed alone, refused ones
among them or not (notes/assumptions/6.md). That they are served one at a time is the model's choice,
notes/assumptions/8.md. -/
def Obligations.OrderOfRequestsDoesNotMatter : Prop :=
  ∃ alone : Request → Reply,
    (∀ q : Request, step { State.reset with requests := [q] } =
      .next { requests := [], served := [q], replies := [alone q] }) ∧
    ∀ qs qs' : List Request, qs.Perm qs' → ∃ t t' : State,
      Sys2Proof.core.run qs.length { State.reset with requests := qs } = .next t ∧
      Sys2Proof.core.run qs'.length { State.reset with requests := qs' } = .next t' ∧
      t.served.zip t.replies = qs.map (fun q => (q, alone q)) ∧
      (t.served.zip t.replies).Perm (t'.served.zip t'.replies)

/-! ## Block primitives -/

/-- R55, R56, R58, R59, R60: what each primitive makes of a Word, nibble by nibble (nibble 0 the most significant) and,
for the diffusion, bit by bit as a parity. The two inverses are tied to the forward tables alone. -/
def Obligations.PrimitivesByNibbleAndBit : Prop :=
  (∀ (x : Word) (n : Fin 16) (k : Nat), k < 4 → (nib x n).getLsbD k = x.getLsbD (60 - 4 * n.val + k)) ∧
  (∀ (C : Config) (x : Word) (n : Fin 16),
    nib (substitute C x) n = C.sbox[(nib x n).toNat] ∧ nib (permute C x) n = nib x C.sr[n]) ∧
  (∀ (C : Config) (x : Word) (j : Nat),
    (diffuse C x).getLsbD j =
      decide (((List.finRange 64).countP fun i => x.getLsbD (63 - i.val) && C.mrow[i].getLsbD j) % 2 = 1)) ∧
  (∀ C : Config, TablesValid C → ∀ (x : Word) (n : Fin 16),
    C.sbox[(nib (unsubstitute C x) n).toNat] = nib x n ∧ nib (unpermute C x) C.sr[n] = nib x n)

/-- R64: the round-trip laws, for every configuration that meets the obligations of R7. -/
def Obligations.PrimitivesRoundTrip : Prop :=
  ∀ C : Config, TablesValid C → ∀ x : Word,
    unsubstitute C (substitute C x) = x ∧ substitute C (unsubstitute C x) = x ∧
    unpermute C (permute C x) = x ∧ permute C (unpermute C x) = x ∧
    diffuse C (diffuse C x) = x ∧
    unmix C (mix C x) = x ∧ mix C (unmix C x) = x

/-- R54, R57: the derived inverse tables are the rows the spec prints for them. The tables are general knowledge
(notes/assumptions/3.md). -/
def Obligations.DerivedInverseTablesAreThePrintedOnes : Prop :=
  (List.finRange 16).map (fun v => sboxInv hardware (BitVec.ofNat 4 v.val)) =
    [0xB, 0x7, 0x3, 0x2, 0xF, 0xD, 0x8, 0x9, 0xA, 0x6, 0x4, 0x0, 0x5, 0xE, 0xC, 0x1] ∧
  (List.finRange 16).map (srInv hardware) = [0, 13, 10, 7, 4, 1, 14, 11, 8, 5, 2, 15, 12, 9, 6, 3]

/-- R125, the spec's own inference ("by linearity"): checking the 64 rows is the same as checking every Word. -/
def Obligations.DiffusionCheckOnRowsSuffices : Prop :=
  ∀ C : Config,
    (∀ i : Fin 64, diffuse C C.mrow[i] = BitVec.twoPow 64 (63 - i.val)) ↔ Function.Involutive (diffuse C)

/-- R61, general knowledge (notes/assumptions/3.md): the printed rows are those of the block matrix
`diag(M0, M1, M1, M0)`, whose 4 by 4 blocks are the identity with one diagonal entry cleared. -/
def Obligations.DiffusionRowsAreTheBlockMatrix : Prop :=
  ∀ i j : Fin 64,
    (mrowDefault[i].getLsbD (63 - j.val) = true ↔
      i.val / 16 = j.val / 16 ∧ i.val % 4 = j.val % 4 ∧
        i.val % 4 ≠ ((i.val % 16) / 4 + (j.val % 16) / 4 + (if i.val / 16 = 0 ∨ i.val / 16 = 3 then 0 else 1)) % 4)

/-- R65, an inference the spec marks as its own: what is linear and what is not, and the structure of the default
tables, which are general knowledge (notes/assumptions/3.md). -/
def Obligations.LinearLayersAndTheirStructure : Prop :=
  (∀ C : Config, ∀ f ∈ [permute C, unpermute C, diffuse C, mix C, unmix C],
    f 0 = 0 ∧ ∀ x y : Word, f (x ^^^ y) = f x ^^^ f y) ∧
  (∀ f ∈ [substitute hardware, unsubstitute hardware], ¬ ∀ x y : Word, f (x ^^^ y) = f x ^^^ f y) ∧
  (∀ (x y : Word) (k : Nat), k < 4 → x.extractLsb' (16 * k) 16 = y.extractLsb' (16 * k) 16 →
    (diffuse hardware x).extractLsb' (16 * k) 16 = (diffuse hardware y).extractLsb' (16 * k) 16) ∧
  (∀ (x : Word) (n : Fin 16), n ∈ ([0, 4, 8, 12] : List (Fin 16)) → nib (permute hardware x) n = nib x n)

/-! ## The core permutation and the ciphers -/

/-- R68, R69: the core by its five steps. `fwd r` is the state after round `r` of step 2 (`fwd 0` after step 1), `bwd r`
after round `r` of step 4 (`bwd 5` after step 3). -/
def Obligations.CoreFollowsItsFiveSteps : Prop :=
  ∀ (C : Config) (rc : RoundConstantTable) (s rk : Word), ∃ fwd bwd : Fin 12 → Word,
    fwd 0 = s ^^^ rk ^^^ rc[0] ∧
    (∀ r : Fin 12, 1 ≤ r → r ≤ 5 → fwd r = permute C (diffuse C (substitute C (fwd (r - 1)))) ^^^ rc[r] ^^^ rk) ∧
    bwd 5 = unsubstitute C (diffuse C (substitute C (fwd 5))) ∧
    (∀ r : Fin 12, 6 ≤ r → r ≤ 10 → bwd r = unsubstitute C (diffuse C (unpermute C (bwd (r - 1) ^^^ rk ^^^ rc[r])))) ∧
    princeCore C rc s rk = bwd 10 ^^^ rc[11] ^^^ rk

/-- R67: the middle layer is an involution, for every configuration that meets the obligations of R7. -/
def Obligations.MiddleLayerIsAnInvolution : Prop :=
  ∀ C : Config, TablesValid C → ∀ x : Word, middle C (middle C x) = x

/-- R68, R74, the spec's own inference ("every step being one"): for fixed keys and table both are bijections. -/
def Obligations.CoreAndPrinceAreBijections : Prop :=
  ∀ C : Config, TablesValid C → ∀ (rc : RoundConstantTable) (k0 k1 : Word),
    Function.Bijective (fun s => princeCore C rc s k1) ∧ Function.Bijective (fun v => prince C v k0 k1 rc)

/-- R68, C5: the core is no involution; the case of 95_test_vectors.md section 1, under the default tables, which are
general knowledge (notes/assumptions/3.md). -/
def Obligations.CoreIsNotAnInvolution : Prop :=
  princeCore hardware rcPrinceDefault
    (princeCore hardware rcPrinceDefault 0x0123456789ABCDEF 0xFEDCBA9876543210) 0xFEDCBA9876543210 =
      0x2942231F41A51965

/-- R70, general knowledge in the spec's own words: alpha-reflection, and the value of ALPHA for the default
`RC_PRINCE` (notes/assumptions/3.md). Whether `RC_APPLE` satisfies the condition is unknown. -/
def Obligations.AlphaReflectionInvertsTheCore : Prop :=
  (∀ C : Config, TablesValid C → ∀ (rc : RoundConstantTable) (alpha : Word), Reflective rc alpha →
    ∀ s rk : Word, princeCore C rc (princeCore C rc s rk) (rk ^^^ alpha) = s) ∧
  Reflective rcPrinceDefault 0xC0AC29B7C97C50DD

/-- R78, general knowledge in the spec's own words: the inverse of `prince` under a reflective table. -/
def Obligations.PrinceInverseFormula : Prop :=
  ∀ C : Config, TablesValid C → ∀ (rc : RoundConstantTable) (alpha : Word), Reflective rc alpha →
    ∀ v k0 k1 : Word,
      princeCore C rc (prince C v k0 k1 rc ^^^ whiteningKey k0) (k1 ^^^ alpha) ^^^ k0 = v

/-- R73: the whitening key by its formula and bit by bit. -/
def Obligations.WhiteningKeyBits : Prop :=
  ∀ k0 : Word,
    whiteningKey k0 = k0.rotateRight 1 ^^^ (k0 >>> 63) ∧
    (whiteningKey k0).getLsbD 63 = k0.getLsbD 0 ∧
    (∀ i, 1 ≤ i → i ≤ 62 → (whiteningKey k0).getLsbD i = k0.getLsbD (i + 1)) ∧
    (whiteningKey k0).getLsbD 0 = (k0.getLsbD 1 ^^ k0.getLsbD 63)

/-- R73's corner case, general knowledge in the spec's own words: the whitening map is linear and invertible. -/
def Obligations.WhiteningKeyIsLinearAndInvertible : Prop :=
  (∀ x y : Word, whiteningKey (x ^^^ y) = whiteningKey x ^^^ whiteningKey y) ∧ Function.Bijective whiteningKey

/-- R82: the two modifiers bit by bit, for every usage code; none is refused. -/
def Obligations.KdfModifierBits : Prop :=
  ∀ (usage : Nibble) (j : Nat),
    (kdfModifier1 usage).getLsbD j =
      (decide (j < 3) && usage.getLsbD j || decide (j = 5) && usage.getLsbD 3) ∧
    (kdfModifier2 usage).getLsbD j =
      (decide (j < 3) && usage.getLsbD j || decide (j = 4) || decide (j = 5) && usage.getLsbD 3)

/-- R82's corner case, the spec's own inference ("derived: from the table"): the 32 modifiers are distinct. -/
def Obligations.KdfModifiersAreDistinct : Prop :=
  Function.Injective kdfModifier1 ∧ Function.Injective kdfModifier2 ∧
    ∀ u v : Nibble, kdfModifier1 u ≠ kdfModifier2 v

/-- R6, R84, D12: the defined usage codes are a set of eight, in every configuration: no code stands twice. -/
def Obligations.UsageCodesAreEightDifferentOnes : Prop :=
  ∀ C : Config, Function.Injective fun i : Fin 8 => C.usageCodes.codes[i].1

/-! ## The pointer datapath -/

/-- R92, an inference the spec marks as its own: the number of code bits at every position of the field. -/
def Obligations.NumberOfCodeBits : Prop :=
  ∀ (bpb : Nat) (tbi : Bool), bpb ≤ 63 →
    ((List.range 64).filter fun j => (pacMask bpb tbi).getLsbD j).length = (55 - bpb) + (if tbi then 0 else 8)

/-- R94: idempotence, which DOC states, and the spec's own inferences (c), (d), (e) from R91 and R93. -/
def Obligations.StripLaws : Prop :=
  ∀ (ptr : Word) (bpb : Nat) (tbi : Bool),
    strip (strip ptr bpb tbi) bpb tbi = strip ptr bpb tbi ∧
    (∀ ptr' : Word, ptr &&& ~~~(pacMask bpb tbi) = ptr' &&& ~~~(pacMask bpb tbi) →
      strip ptr bpb tbi = strip ptr' bpb tbi) ∧
    (bpb ≤ 55 → Canonical (strip ptr bpb tbi) bpb tbi)

/-- R90, R98 (a), inferences the spec marks as its own: bit 55 is kept by all three functions, and signing does not
change what `strip` gives, so that `auth` feeds the cipher the word that `add_pac` did. -/
def Obligations.SelectorBitAndStrippedPointerAreKept : Prop :=
  ∀ (ptr kHi kLo modifier : Word) (bpb : Nat) (tbi ehp ehp2 bKey : Bool),
    (strip ptr bpb tbi).getLsbD 55 = ptr.getLsbD 55 ∧
    (addPac hardware ptr kHi kLo modifier bpb tbi ehp ehp2).getLsbD 55 = ptr.getLsbD 55 ∧
    (auth hardware ptr kHi kLo bKey modifier bpb tbi ehp2).getLsbD 55 = ptr.getLsbD 55 ∧
    strip (addPac hardware ptr kHi kLo modifier bpb tbi ehp ehp2) bpb tbi = strip ptr bpb tbi

/-- R102, with its corrections (C9, C12), which the spec marks as its own: signing then authenticating a pointer that is
not poisoned gives its stripped form, in every case but `bpb >= 56`, `tbi` clear, EnhancedPAC2. -/
def Obligations.SignThenAuthenticateRoundTrip : Prop :=
  ∀ (C : Config) (ptr kHi kLo modifier : Word) (bpb : Nat) (tbi ehp ehp2 bKey : Bool),
    extPoisoned ptr bpb tbi = false → (bpb ≤ 55 ∨ tbi = true ∨ ehp2 = false) →
    auth C (addPac C ptr kHi kLo modifier bpb tbi ehp ehp2) kHi kLo bKey modifier bpb tbi ehp2 = strip ptr bpb tbi

/-- R103 with its correction (C12), which the spec marks as its own: without EnhancedPAC2, authenticating a signed poisoned
pointer gives the failure result, whose code bits name the key's family: always without EnhancedPAC, and with it
wherever the cipher's masked bits are not all 0. The code's positions are the parameters of R100. -/
def Obligations.PoisonedPointersFailAuthentication : Prop :=
  ∀ (C : Config) (ptr kHi kLo modifier : Word) (bpb : Nat) (tbi ehp bKey : Bool),
    C.errLsbTbi ≤ 62 → C.errLsbNotbi ≤ 62 → extPoisoned ptr bpb tbi = true →
    (ehp = true → modifiedPrince C (strip ptr bpb tbi) kHi kLo modifier &&& pacMask bpb tbi ≠ 0) →
    auth C (addPac C ptr kHi kLo modifier bpb tbi ehp false) kHi kLo bKey modifier bpb tbi false =
      authFail C (strip ptr bpb tbi) bKey tbi ∧
    failureBits C (authFail C (strip ptr bpb tbi) bKey tbi) tbi = (if bKey then 0b10 else 0b01)

/-- R101 (a), (b), (e), inferences the spec marks as its own: EnhancedPAC2 reports nothing and ignores the key family; an
empty mask makes `auth` the identity; a failure whose code positions are masked changes exactly one bit. -/
def Obligations.AuthCornerCases : Prop :=
  (∀ (ptr kHi kLo modifier : Word) (bpb : Nat) (tbi : Bool),
    auth hardware ptr kHi kLo true modifier bpb tbi true = auth hardware ptr kHi kLo false modifier bpb tbi true) ∧
  (∀ (ptr kHi kLo modifier : Word) (bpb : Nat) (ehp2 bKey : Bool), 55 ≤ bpb →
    auth hardware ptr kHi kLo bKey modifier bpb true ehp2 = ptr) ∧
  (∀ (ptr : Word) (bpb : Nat) (tbi bKey : Bool), (tbi = false ∨ bpb ≤ 52) →
    ∃! j : Nat, (authFail hardware (strip ptr bpb tbi) bKey tbi).getLsbD j ≠ (strip ptr bpb tbi).getLsbD j)
end

