-- ==== Sys2Proof/Laws/State.lean ====
section
/-!
SUPPORT. What each operation on the run leaves in each field of State, once, so that no later proof unfolds a record
update.
-/

namespace Sys2Proof.Machine

@[simp] theorem reset_requests : State.reset.requests = [] := rfl
@[simp] theorem reset_served : State.reset.served = [] := rfl
@[simp] theorem reset_replies : State.reset.replies = [] := rfl

@[simp] theorem issue_requests (q : Request) (s : State) : (issue q s).requests = s.requests ++ [q] := rfl
@[simp] theorem issue_served (q : Request) (s : State) : (issue q s).served = s.served := rfl
@[simp] theorem issue_replies (q : Request) (s : State) : (issue q s).replies = s.replies := rfl

@[simp] theorem issueNext_requests (q : Request) (s : State) : (issueNext q s).requests = q :: s.requests := rfl
@[simp] theorem issueNext_served (q : Request) (s : State) : (issueNext q s).served = s.served := rfl
@[simp] theorem issueNext_replies (q : Request) (s : State) : (issueNext q s).replies = s.replies := rfl

@[simp] theorem withFetchWord_requests (s : State) (nbits w : Nat) :
    (s.withFetchWord nbits w).requests = requestOfBits nbits w :: s.requests := rfl
@[simp] theorem withFetchWord_served (s : State) (nbits w : Nat) : (s.withFetchWord nbits w).served = s.served := rfl
@[simp] theorem withFetchWord_replies (s : State) (nbits w : Nat) :
    (s.withFetchWord nbits w).replies = s.replies := rfl

end Sys2Proof.Machine
end

