-- ==== Sys2Proof/Laws/Ops.lean ====
section
/-!
SUPPORT. What each operation of Machine/Ops.lean does, once: the run's operations by the state they leave, the Word
operations bit by bit and nibble by nibble.
-/

namespace Sys2Proof.Machine

/-! ## The run -/

/-- All that `takeRequest` can do. -/
theorem takeRequest_eq_some_iff (s s' : State) (q : Request) :
    takeRequest s = some (q, s') ↔
      ∃ rest, s.requests = q :: rest ∧ s' = { s with requests := rest, served := s.served ++ [q] } := by
  cases h : s.requests with
  | nil => simp [takeRequest, h]
  | cons p rest =>
    simp only [takeRequest, h, Option.some.injEq, Prod.mk.injEq, List.cons.injEq]
    constructor
    · rintro ⟨rfl, rfl⟩
      exact ⟨rest, ⟨rfl, rfl⟩, rfl⟩
    · rintro ⟨rest', ⟨rfl, rfl⟩, rfl⟩
      exact ⟨rfl, rfl⟩

theorem takeRequest_eq_none_iff (s : State) : takeRequest s = none ↔ s.requests = [] := by
  cases h : s.requests <;> simp [takeRequest, h]

/-- All that `reply` can do: it always goes on, and appends what the request got. -/
theorem reply_eq_next_iff (x : Reply) (s t : State) :
    reply x s = .next t ↔ t = { s with replies := s.replies ++ [x] } := by
  simp [reply, eq_comm]

/-- All that `respond` can do: it always answers, and appends the response. -/
theorem respond_eq_next_iff (r : Response) (s t : State) :
    respond r s = .next t ↔ t = { s with replies := s.replies ++ [.response r] } := reply_eq_next_iff _ _ _

/-- All that `refuseRequest` can do: it always goes on, and marks the request refused. -/
theorem refuseRequest_eq_next_iff (e : DecodeError) (s t : State) :
    refuseRequest e s = .next t ↔ t = { s with replies := s.replies ++ [.refused e] } := reply_eq_next_iff _ _ _

/-! ## Bits of Words -/

@[simp] theorem getLsbD_bit (n j : Nat) : (bit n).getLsbD j = (decide (j < 64) && decide (j = n)) := by
  unfold bit
  rw [BitVec.getLsbD_shiftLeft, BitVec.getLsbD_one]
  by_cases h1 : j < 64 <;> by_cases h2 : j < n <;> by_cases h3 : j = n <;> (simp [*]; try omega)

@[simp] theorem getLsbD_onesBelow (n j : Nat) :
    (onesBelow n).getLsbD j = (decide (j < 64) && decide (j < n)) := by
  unfold onesBelow
  rw [BitVec.getLsbD_not, BitVec.getLsbD_shiftLeft, BitVec.getLsbD_allOnes]
  by_cases h1 : j < 64 <;> by_cases h2 : j < n <;> simp [*]
  omega

@[simp] theorem getLsbD_zext128 (w : Word) (j : Nat) : (zext128 w).getLsbD j = w.getLsbD j := by
  unfold zext128
  rw [BitVec.getLsbD_setWidth]
  by_cases h : j < 128
  · simp [h]
  · rw [BitVec.getLsbD_of_ge w j (by omega)]; simp

theorem zext128_injective : Function.Injective zext128 := by
  intro x y h
  apply BitVec.eq_of_getLsbD_eq
  intro i _
  rw [← getLsbD_zext128, h, getLsbD_zext128]

/-! ## Nibbles of Words -/

theorem getLsbD_nib (w : Word) (n : Fin 16) (j : Nat) :
    (nib w n).getLsbD j = (decide (j < 4) && w.getLsbD (60 - 4 * n.val + j)) := by
  simp [nib, BitVec.getLsbD_extractLsb']

@[simp] theorem nib_ofNibbles (f : Fin 16 → Nibble) (n : Fin 16) : nib (ofNibbles f) n = f n := by
  apply BitVec.eq_of_getLsbD_eq
  intro j hj
  rw [getLsbD_nib]
  fin_cases n <;> (simp only [ofNibbles, BitVec.getLsbD_append]; interval_cases j <;> simp)

/-- Two Words with equal nibbles are equal. -/
theorem eq_of_nib_eq {x y : Word} (h : ∀ n, nib x n = nib y n) : x = y := by
  apply BitVec.eq_of_getLsbD_eq
  intro i hi
  have hn := congrArg (fun v : Nibble => v.getLsbD (i % 4)) (h ⟨15 - i / 4, by omega⟩)
  simp only [getLsbD_nib] at hn
  have h4 : i % 4 < 4 := Nat.mod_lt _ (by omega)
  have hidx : 60 - 4 * (15 - i / 4) + i % 4 = i := by omega
  simpa [h4, hidx] using hn

@[simp] theorem ofNibbles_nib (w : Word) : ofNibbles (nib w) = w := eq_of_nib_eq (nib_ofNibbles _)

theorem ofNibbles_congr {f g : Fin 16 → Nibble} (h : ∀ n, f n = g n) : ofNibbles f = ofNibbles g := by
  rw [funext h]

theorem nib_xor (x y : Word) (n : Fin 16) : nib (x ^^^ y) n = nib x n ^^^ nib y n := by
  apply BitVec.eq_of_getLsbD_eq
  intro j hj
  simp only [getLsbD_nib, BitVec.getLsbD_xor, hj, decide_true, Bool.true_and]

end Sys2Proof.Machine
end

