-- ==== Sys2Proof/Laws/Operands.lean ====
section
/-!
SUPPORT. What each assembled value (Machine/Operands.lean), the poison test and failure result (Machine/Flags.lean) and the
pointer operations (Machine/Pac.lean) are, bit by bit.
-/

namespace Sys2Proof.Machine

/-- Bit 55 never, bits `bpb..54` always, bits 56 to 63 when `tbi` is clear. -/
@[simp] theorem getLsbD_pacMask (bpb : Nat) (tbi : Bool) (j : Nat) :
    (pacMask bpb tbi).getLsbD j = ((decide (bpb ≤ j) && decide (j ≤ 54)) || (!tbi && decide (56 ≤ j) && decide (j ≤ 63))) := by
  have hhigh : (0xFF00000000000000 : Word).getLsbD j = (decide (56 ≤ j) && decide (j ≤ 63)) := by
    by_cases h : j < 64
    · interval_cases j <;> rfl
    · rw [BitVec.getLsbD_of_ge _ j (by omega)]
      simp
      omega
  unfold pacMask
  rw [BitVec.getLsbD_or, BitVec.getLsbD_and, BitVec.getLsbD_not, getLsbD_onesBelow, getLsbD_onesBelow]
  cases tbi <;> simp only [hhigh, Bool.false_eq_true, if_true, if_false] <;>
    by_cases h1 : bpb ≤ j <;> by_cases h2 : j ≤ 54 <;> by_cases h3 : 56 ≤ j <;> by_cases h4 : j ≤ 63 <;>
    simp [*] <;> omega

/-- A masked bit of the result is bit 55 of the pointer; any other bit is the pointer's own. -/
theorem getLsbD_strip (ptr : Word) (bpb : Nat) (tbi : Bool) (j : Nat) :
    (strip ptr bpb tbi).getLsbD j =
      if (pacMask bpb tbi).getLsbD j then ptr.getLsbD 55 else ptr.getLsbD j := by
  unfold strip
  by_cases hj : j < 64
  · generalize pacMask bpb tbi = m
    cases h : ptr.getLsbD 55 <;> cases hm : m.getLsbD j <;>
      simp only [if_true, if_false, Bool.false_eq_true, BitVec.getLsbD_or, BitVec.getLsbD_and, BitVec.getLsbD_not, hm, hj,
        decide_true, Bool.not_true, Bool.not_false, Bool.and_true, Bool.and_false, Bool.or_true, Bool.or_false]
  · have hm : (pacMask bpb tbi).getLsbD j = false := BitVec.getLsbD_of_ge _ j (by omega)
    rw [hm, BitVec.getLsbD_of_ge _ j (by omega), BitVec.getLsbD_of_ge ptr j (by omega)]
    simp

/-- Inside the mask the code is merged in, outside it the pointer is kept. -/
theorem getLsbD_pacMerge (ptr pac m : Word) (ehp2 : Bool) (j : Nat) :
    (pacMerge ptr pac m ehp2).getLsbD j =
      if m.getLsbD j then (ehp2 && ptr.getLsbD j) ^^ pac.getLsbD j else ptr.getLsbD j := by
  unfold pacMerge
  by_cases hj : j < 64
  · cases ehp2 <;> cases hm : m.getLsbD j <;>
      simp only [if_true, if_false, Bool.false_eq_true, BitVec.getLsbD_or, BitVec.getLsbD_and, BitVec.getLsbD_xor,
        BitVec.getLsbD_not, hm, hj, decide_true, Bool.true_and, Bool.false_and, Bool.not_true, Bool.not_false,
        Bool.and_true, Bool.and_false, Bool.or_false, Bool.false_or, Bool.xor_false, Bool.false_xor]
  · rw [BitVec.getLsbD_of_ge _ j (by omega), BitVec.getLsbD_of_ge m j (by omega),
      BitVec.getLsbD_of_ge ptr j (by omega)]
    simp

/-- The two code bits are replaced by the code, every other bit is kept. -/
theorem getLsbD_authFail (C : Config) (original : Word) (bKey tbi : Bool) (j : Nat) :
    (authFail C original bKey tbi).getLsbD j =
      if j < 64 ∧ j = errorLsb C tbi then !bKey
      else if j < 64 ∧ j = errorLsb C tbi + 1 then bKey
      else original.getLsbD j := by
  have h3 : ∀ i, (0b11 : Word).getLsbD i = (decide (i = 0) || decide (i = 1)) := by
    intro i
    by_cases h : i < 64
    · interval_cases i <;> rfl
    · rw [BitVec.getLsbD_of_ge _ i (by omega)]; simp; omega
  have hc : ∀ i, (errorCode bKey).getLsbD i = (decide (i = 0) && !bKey || decide (i = 1) && bKey) := by
    intro i
    by_cases h : i < 64
    · cases bKey <;> interval_cases i <;> rfl
    · rw [BitVec.getLsbD_of_ge _ i (by omega)]; simp; omega
  unfold authFail
  simp only [BitVec.getLsbD_or, BitVec.getLsbD_and, BitVec.getLsbD_not, BitVec.getLsbD_shiftLeft, h3, hc]
  generalize errorLsb C tbi = l
  have e0 : ¬ j < l → ((j - l = 0) ↔ j = l) := fun h => by omega
  have e1 : ¬ j < l → ((j - l = 1) ↔ j = l + 1) := fun h => by omega
  rcases Nat.lt_trichotomy j l with h | h | h
  · have d0 : ¬ j = l := by omega
    have d1 : ¬ j = l + 1 := by omega
    by_cases hj : j < 64
    · simp [hj, h, d0, d1]
    · simp [hj, BitVec.getLsbD_of_ge original j (by omega)]
  · subst h
    by_cases hj : j < 64
    · simp [hj]
    · simp [hj, BitVec.getLsbD_of_ge original j (by omega)]
  · have d : ¬ j < l := by omega
    have d0 : ¬ j = l := by omega
    by_cases hj : j < 64
    · by_cases d1 : j = l + 1
      · subst d1
        simp [hj]
      · simp [hj, d, e0 d, e1 d, d0, d1]
    · simp [hj, BitVec.getLsbD_of_ge original j (by omega)]

/-- A pointer is not poisoned exactly when all bits of its extension field are equal. -/
theorem extPoisoned_eq_false_iff (ptr : Word) (bpb : Nat) (tbi : Bool) :
    extPoisoned ptr bpb tbi = false ↔
      ∀ j, bpb ≤ j → j ≤ topBit tbi → ptr.getLsbD j = ptr.getLsbD (topBit tbi) := by
  unfold extPoisoned
  by_cases h : bpb > topBit tbi
  · simp only [h, if_true, true_iff]
    intro j h1 h2
    omega
  · simp only [h, if_false]
    have hall : ∀ b : Bool, (ptr.extractLsb (topBit tbi) bpb = if b then BitVec.allOnes _ else 0) ↔
        ∀ j, bpb ≤ j → j ≤ topBit tbi → ptr.getLsbD j = b := by
      intro b
      constructor
      · intro he j h1 h2
        have := congrArg (fun v => v.getLsbD (j - bpb)) he
        have hlt : j - bpb < topBit tbi - bpb + 1 := by omega
        have hadd : bpb + (j - bpb) = j := by omega
        cases b <;> simpa [hlt, hadd] using this
      · intro hb
        apply BitVec.eq_of_getLsbD_eq
        intro i hi
        have := hb (bpb + i) (by omega) (by omega)
        cases b <;> simp [this, hi]
    have h0 := hall false
    have h1 := hall true
    simp only [Bool.false_eq_true, if_false, if_true] at h0 h1
    simp only [Bool.and_eq_false_imp, bne_iff_ne, ne_eq, bne_eq_false_iff_eq]
    constructor
    · intro hp j hj1 hj2
      by_cases hz : ptr.extractLsb (topBit tbi) bpb = 0
      · rw [h0.mp hz j hj1 hj2, h0.mp hz (topBit tbi) (by omega) (le_refl _)]
      · have hz1 := h1.mp (hp hz)
        rw [hz1 j hj1 hj2, hz1 (topBit tbi) (by omega) (le_refl _)]
    · intro hj hz
      apply h1.mpr
      cases ht : ptr.getLsbD (topBit tbi) with
      | true => intro j a b; rw [hj j a b, ht]
      | false => exact absurd (h0.mpr fun j a b => by rw [hj j a b, ht]) hz

end Sys2Proof.Machine
end

