-- ==== Sys2Proof/Laws/Primitives.lean ====
section
/-!
SUPPORT. What the block primitives do to each nibble, and what the derived inverse tables are when the forward tables
are permutations (R7).
-/

namespace Sys2Proof.Machine

theorem nib_substitute (C : Config) (s : Word) (n : Fin 16) :
    nib (substitute C s) n = C.sbox[(nib s n).toNat] := by simp [substitute]

theorem nib_unsubstitute (C : Config) (s : Word) (n : Fin 16) :
    nib (unsubstitute C s) n = sboxInv C (nib s n) := by simp [unsubstitute]

theorem nib_permute (C : Config) (s : Word) (n : Fin 16) : nib (permute C s) n = nib s C.sr[n] := by
  simp [permute]

theorem nib_unpermute (C : Config) (s : Word) (n : Fin 16) : nib (unpermute C s) n = nib s (srInv C n) := by
  simp [unpermute]

/-- The derived inverse S-box undoes an injective S-box. -/
theorem sboxInv_sbox {C : Config} (h : Function.Injective fun v : Nibble => C.sbox[v.toNat]) (v : Nibble) :
    sboxInv C C.sbox[v.toNat] = v := by
  unfold sboxInv
  cases hf : (List.finRange 16).find? (fun i : Fin 16 => C.sbox[i] == C.sbox[v.toNat]) with
  | none =>
    have := List.find?_eq_none.mp hf ⟨v.toNat, v.isLt⟩ (List.mem_finRange _)
    simp at this
  | some i =>
    have hi := List.find?_some hf
    have hv : (BitVec.ofNat 4 i.val : Nibble) = v := by
      apply h
      have hm : (BitVec.ofNat 4 i.val).toNat = i.val := by simp
      simpa [hm] using hi
    simpa using hv

/-- The derived inverse permutation undoes an injective `SR`. -/
theorem srInv_sr {C : Config} (h : Function.Injective fun n : Fin 16 => C.sr[n]) (n : Fin 16) :
    srInv C C.sr[n] = n := by
  unfold srInv
  cases hf : (List.finRange 16).find? (fun i : Fin 16 => C.sr[i] == C.sr[n]) with
  | none =>
    have := List.find?_eq_none.mp hf n (List.mem_finRange _)
    simp at this
  | some i =>
    have hi := List.find?_some hf
    exact h (by simpa using hi)

/-! ## The diffusion -/

/-- The fold of `diffuse`, from any start and over any rows. -/
theorem diffuse_fold_xor (rows : Fin 64 → Word) (l : List (Fin 64)) (t u x y : Word) :
    l.foldl (fun a i => if (x ^^^ y).getLsbD (63 - i.val) then a ^^^ rows i else a) (t ^^^ u) =
      l.foldl (fun a i => if x.getLsbD (63 - i.val) then a ^^^ rows i else a) t ^^^
        l.foldl (fun a i => if y.getLsbD (63 - i.val) then a ^^^ rows i else a) u := by
  induction l generalizing t u with
  | nil => rfl
  | cons i l ih =>
    simp only [List.foldl_cons]
    rw [← ih]
    congr 1
    rw [BitVec.getLsbD_xor]
    cases x.getLsbD (63 - i.val) <;> cases y.getLsbD (63 - i.val) <;>
      simp only [Bool.xor_false, Bool.xor_true, Bool.not_true, Bool.not_false, Bool.false_eq_true, if_true, if_false]
    · rw [BitVec.xor_assoc]
    · rw [BitVec.xor_assoc, BitVec.xor_assoc, BitVec.xor_comm (rows i) u]
    · rw [BitVec.xor_assoc t, BitVec.xor_comm (rows i) (u ^^^ rows i), BitVec.xor_assoc u, BitVec.xor_self,
        BitVec.xor_zero]

/-- R60: the diffusion is linear whatever its rows are. -/
theorem diffuse_xor (C : Config) (x y : Word) : diffuse C (x ^^^ y) = diffuse C x ^^^ diffuse C y := by
  have h := diffuse_fold_xor (fun i => C.mrow[i]) (List.finRange 64) 0 0 x y
  have h0 : (0 : Word) ^^^ 0 = 0 := rfl
  rwa [h0] at h

theorem diffuse_zero (C : Config) : diffuse C 0 = 0 := by
  have h := diffuse_xor C 0 0
  rwa [BitVec.xor_self, BitVec.xor_self] at h

/-- The fold of `diffuse` over the unit rows keeps the bits of the positions it has visited. -/
theorem getLsbD_unit_fold (x : Word) (l : List (Fin 64)) (hl : l.Nodup) (t : Word) (j : Fin 64) :
    (l.foldl (fun a i => if x.getLsbD (63 - i.val) then a ^^^ bit (63 - i.val) else a) t).getLsbD j.rev.val =
      (t.getLsbD j.rev.val ^^ (decide (j ∈ l) && x.getLsbD j.rev.val)) := by
  induction l generalizing t with
  | nil => simp
  | cons i l ih =>
    have hi := List.nodup_cons.mp hl
    simp only [List.foldl_cons]
    rw [ih hi.2]
    by_cases hj : j = i
    · subst hj
      have hrev : j.rev.val = 63 - j.val := by simp [Fin.rev]
      have hlt : 63 - j.val < 64 := by omega
      rw [hrev]
      cases hx : x.getLsbD (63 - j.val) <;> simp [hi.1, hlt, -BitVec.getLsbD_eq_getElem]
    · have hne : ¬ 63 - j.val = 63 - i.val := fun h => hj (Fin.ext (by omega))
      have hrev : j.rev.val = 63 - j.val := by simp [Fin.rev]
      rw [hrev]
      cases hx : x.getLsbD (63 - i.val) <;> simp [hj, hne, -BitVec.getLsbD_eq_getElem]

/-- Folding the unit rows gives the Word back. -/
theorem unit_fold_eq (x : Word) :
    (List.finRange 64).foldl (fun a i => if x.getLsbD (63 - i.val) then a ^^^ bit (63 - i.val) else a) 0 = x := by
  apply BitVec.eq_of_getLsbD_eq
  intro i hi
  have h := getLsbD_unit_fold x (List.finRange 64) (List.nodup_finRange 64) 0 (Fin.rev ⟨i, hi⟩)
  simpa using h

/-- A linear map goes inside the fold of `diffuse`. -/
theorem linear_diffuse_fold {f : Word → Word} (hf : ∀ x y, f (x ^^^ y) = f x ^^^ f y) (rows : Fin 64 → Word)
    (x : Word) (l : List (Fin 64)) (t : Word) :
    f (l.foldl (fun a i => if x.getLsbD (63 - i.val) then a ^^^ rows i else a) t) =
      l.foldl (fun a i => if x.getLsbD (63 - i.val) then a ^^^ f (rows i) else a) (f t) := by
  induction l generalizing t with
  | nil => rfl
  | cons i l ih =>
    simp only [List.foldl_cons]
    rw [ih]
    cases x.getLsbD (63 - i.val) <;> simp [hf]

/-- R7, for the hardware's tables: the premise of every claim about a configuration is met (R125: "discharged once by
evaluation"). -/
theorem hardware_tablesValid : TablesValid hardware where
  sbox_injective := by
    intro u v h
    revert u v
    decide
  sr_injective := by
    intro m n h
    revert m n
    decide
  diffuse_involutive := by
    have rows : ∀ i : Fin 64, diffuse hardware hardware.mrow[i] = bit (63 - i.val) := by decide +kernel
    intro x
    have h := linear_diffuse_fold (diffuse_xor hardware) (fun i => hardware.mrow[i]) x (List.finRange 64) 0
    rw [diffuse_zero] at h
    simp only [rows] at h
    rw [unit_fold_eq] at h
    exact h

end Sys2Proof.Machine
end

