-- ==== Sys2Proof/Tests/Slice0.lean ====
section
/-!
SUPPORT. Tests with expected results from the spec (each names its source), and for every statement with hypotheses a
concrete case that meets them. Vectors marked T0 use the spec's test fixture `RC_APPLE := RC_PRINCE` (D27): they test
the plumbing and say nothing of the hardware's table.
-/

namespace Sys2Proof.Tests

open Sys2Proof.Machine

/-- The test fixture T0 (D27), never part of the machine. -/
def t0 : Config := { hardware with rcApple := rcPrinceDefault }

/-- A state whose only request is `q`. -/
def only (q : Request) : State := { requests := [q], served := [], replies := [] }

/-- What the last request of a step got. -/
def lastReply : Host.Outcome State Fault Refusal → Option Reply
  | .next s => s.replies.getLast?
  | _ => none

/-! ## WellFormed: an ill-formed term for each check (R44) -/

theorem test_wf_strip_refuses_64 : WellFormed (.strip 0 64 true) = false := by decide
theorem test_wf_addpac_refuses_64 : WellFormed (.addpac 0 0 0 0 64 false false false) = false := by decide
theorem test_wf_auth_refuses_64 : WellFormed (.auth 0 0 0 false 0 64 false false) = false := by decide
theorem test_wf_accepts_63 : WellFormed (.addpac 0 0 0 0 63 true true true) = true := by decide

/-! ## Decoding: control words written out field by field, `usage bpb rc_sel b_key ehp2 ehp tbi op` (R38) -/

theorem test_decode_strip :
    decode { ctl := 0b0000#4 ++ 0b101111#6 ++ 0b0#1 ++ 0b0#1 ++ 0b0#1 ++ 0b0#1 ++ 0b1#1 ++ 0b000#3,
             a := 0x00AB7FFFDEADBEEF, b := 7, k := 9 } = .ok (.strip 0x00AB7FFFDEADBEEF 47 true) := by decide

theorem test_decode_addpac :
    decode { ctl := 0b0000#4 ++ 0b101111#6 ++ 0b0#1 ++ 0b0#1 ++ 0b1#1 ++ 0b0#1 ++ 0b1#1 ++ 0b001#3,
             a := 1, b := 2, k := 0x0000000000000003_0000000000000004 } =
      .ok (.addpac 1 3 4 2 47 true false true) := by decide

theorem test_decode_auth :
    decode { ctl := 0b0000#4 ++ 0b100111#6 ++ 0b0#1 ++ 0b1#1 ++ 0b0#1 ++ 0b1#1 ++ 0b0#1 ++ 0b010#3,
             a := 1, b := 2, k := 0x0000000000000003_0000000000000004 } =
      .ok (.auth 1 3 4 true 2 39 false false) := by decide

theorem test_decode_kdf :
    decode { ctl := 0b1001#4 ++ 0b000000#6 ++ 0b0#1 ++ 0b0#1 ++ 0b0#1 ++ 0b0#1 ++ 0b0#1 ++ 0b011#3,
             a := 1, b := 2, k := 0x0000000000000003_0000000000000004 } = .ok (.kdf 3 4 1 2 9) := by decide

theorem test_decode_mprince :
    decode { ctl := 0b1111#4 ++ 0b111111#6 ++ 0b0#1 ++ 0b1#1 ++ 0b1#1 ++ 0b1#1 ++ 0b1#1 ++ 0b100#3,
             a := 1, b := 2, k := 0x0000000000000003_0000000000000004 } = .ok (.mprince 1 3 4 2) := by decide

theorem test_decode_prince :
    decode { ctl := 0b0000#4 ++ 0b000000#6 ++ 0b1#1 ++ 0b0#1 ++ 0b0#1 ++ 0b0#1 ++ 0b0#1 ++ 0b101#3,
             a := 1, b := 2, k := 0x0000000000000003_0000000000000004 } = .ok (.prince 1 3 4 .apple) := by decide

/-- Program 4, request 2: every ignored field set. -/
theorem test_decode_prince_ignored_fields :
    decode { ctl := 0x3FF7D, a := 0x0123456789ABCDEF, b := 0xFFFFFFFFFFFFFFFF, k := 0xFEDCBA9876543210 } =
      .ok (.prince 0x0123456789ABCDEF 0 0xFEDCBA9876543210 .prince) := by decide

/-- Program 4, requests 6 and 7. -/
theorem test_decode_reserved :
    decode { ctl := 0x00006, a := 0, b := 0, k := 0 } = .error (.reservedOp 6) ∧
    decode { ctl := 0x3FFFF, a := 0, b := 0, k := 0 } = .error (.reservedOp 7) := by decide

/-- R52. -/
theorem test_encode_addpac : (encode (.addpac 1 2 3 4 47 true false false)).ctl = 0x02F09 := by decide
/-- R52. -/
theorem test_encode_kdf : (encode (.kdf 1 2 3 4 9)).ctl = 0x24003 := by decide

/-- R49's first example, its call written as `MNEMONIC arg, arg, ...`. -/
theorem test_asmText_strip :
    asmText (.strip 0x00AB7FFFDEADBEEF 47 true) = "STRIP 0x00AB7FFFDEADBEEF, 47, 1" := by decide +kernel

/-! ## Primitives and cipher parts: 95_test_vectors.md sections 2 and 3 -/

theorem test_substitute : substitute hardware 0x0123456789ABCDEF = 0xBF32AC916780E5D4 := by decide +kernel
theorem test_unsubstitute : unsubstitute hardware 0x0123456789ABCDEF = 0xB732FD89A6405EC1 := by decide +kernel
theorem test_permute : permute hardware 0x0123456789ABCDEF = 0x05AF49E38D27C16B := by decide +kernel
theorem test_unpermute : unpermute hardware 0x0123456789ABCDEF = 0x0DA741EB852FC963 := by decide +kernel
theorem test_diffuse : diffuse hardware 0xFEDCBA9876543210 = 0xCFEDBA9876540321 := by decide +kernel
theorem test_mix : mix hardware 0xFEDCBA9876543210 = 0xCA51B62D73E80F94 := by decide +kernel
theorem test_unmix : unmix hardware 0x8000000000000001 = 0x0888000011100000 := by decide +kernel
theorem test_middle : middle hardware 0xFEDCBA9876543210 = 0x8195AE90897C8CC2 := by decide +kernel
/-- Section 3's trace of `core(0, 0, RC_PRINCE)`: rounds 1 and 2, and round 6. -/
theorem test_core_rounds :
    forwardRound hardware rcPrinceDefault 0 0xA8A23195B8CBC8FF 2 = 0x25C5E8C5874F767E ∧
    backwardRound hardware rcPrinceDefault 0 0xC81441D8A7C0DE99 6 = 0xF1C62D782DB0CCA5 := by decide +kernel
theorem test_whiteningKey : whiteningKey 0x8000000000000001 = 0xC000000000000001 := by decide
theorem test_kdfModifiers : kdfModifier1 9 = 0x21 ∧ kdfModifier2 15 = 0x37 := by decide

/-! ## The operations -/

/-- Program 1, request 1, through `step`. -/
theorem test_strip_step :
    lastReply (step (only { ctl := 0x02F08, a := 0x00AB7FFFDEADBEEF, b := 0, k := 0 })) =
      some (.response 0x00FFFFFFDEADBEEF) := by
  decide +kernel
/-- Section 6: the maximal field without top-byte-ignore. -/
theorem test_strip_maximal : strip 0x0080000000000000 0 false = 0xFFFFFFFFFFFFFFFF := by decide

/-- Section 7, the poisoned row 8, `P` assumed: the flip lands on bit 62. -/
theorem test_addpac_flip : addPacWith 0xFEDCBA9876543210 0x0000800012345678 47 false false false = 0xBE5C800012345678 := by
  decide
/-- Section 9, program 1, request 2 [T0]. -/
theorem test_addpac_t0 :
    addPac t0 0x00FFFFFFDEADBEEF 0x0123456789ABCDEF 0xFEDCBA9876543210 0x00000000DEADBEEF 47 true false false =
      0x00D8FFFFDEADBEEF := by decide +kernel

/-- Section 8, row 14, `P` assumed: the B code overwrites address bit 52. -/
theorem test_auth_failure_over_address_bit :
    authWith hardware 0xFEDCBA9876543210 0x0030000000000000 true 53 true false = 0x0020000000000000 := by decide
/-- Program 2, request 4 [T0]. -/
theorem test_auth_t0 :
    auth t0 0x50EFE50012345678 0xF9621E4506DEC00C 0x5903E195060D8F8B true 0x42 39 false false = 0xFFFFFF8012345678 := by
  decide +kernel

/-- Section 5, input B, usage 9 [T0]. -/
theorem test_kdf_t0 :
    kdf t0 0x0123456789ABCDEF 0xFEDCBA9876543210 0x1111111111111111 0x2222222222222222 9 =
      { hi := 0xF9621E4506DEC00C, lo := 0x5903E195060D8F8B } := by decide +kernel

/-- Section 4, row 6 [T0]. -/
theorem test_mprince_t0 :
    modifiedPrince t0 0x0123456789ABCDEF 0xFEDCBA9876543210 0x0011223344556677 0x00000000DEADBEEF =
      0x39CAB62E183563D7 := by decide +kernel

/-- Program 4, request 2, through `step`. -/
theorem test_prince_step :
    lastReply (step (only { ctl := 0x3FF7D, a := 0x0123456789ABCDEF, b := 0xFFFFFFFFFFFFFFFF,
                               k := 0xFEDCBA9876543210 })) =
      some (.response 0xAE25AD3CA8FA9CCF) := by decide +kernel

/-! ## Witnesses: cases that meet the hypotheses of each statement -/

theorem witness_DecodeOfEncodeIsTheInstruction :
    WellFormed (.strip 1 63 true) = true ∧ WellFormed (.auth 1 2 3 true 4 0 false true) = true := by decide

theorem witness_DecodingIsTotalAndByOpAlone :
    (ctlOp 0x00000).toNat ≤ 5 ∧ (ctlOp 0x3FFFD).toNat ≤ 5 ∧ 6 ≤ (ctlOp 0x00006).toNat ∧ 6 ≤ (ctlOp 0x3FFFF).toNat := by
  decide

theorem witness_ControlWordIsTheNumberOfItsFields : 0 ≤ 63 ∧ 63 ≤ 63 := by decide

/-- One pair for each operation, differing in every ignored port and field. -/
theorem witness_IgnoredInputsDoNotInfluenceTheResponse :
    SameUsedInputs ⟨0x02F08, 1, 2, 3⟩ ⟨0x3EFF8, 1, 4, 5⟩ ∧ SameUsedInputs ⟨0x02F09, 1, 2, 3⟩ ⟨0x3EFC9, 1, 2, 3⟩ ∧
    SameUsedInputs ⟨0x02F0A, 1, 2, 3⟩ ⟨0x3EF9A, 1, 2, 3⟩ ∧ SameUsedInputs ⟨0x24003, 1, 2, 3⟩ ⟨0x27FFB, 1, 2, 3⟩ ∧
    SameUsedInputs ⟨0x00004, 1, 2, 3⟩ ⟨0x3FFFC, 1, 2, 3⟩ ∧ SameUsedInputs ⟨0x00005, 1, 2, 3⟩ ⟨0x3FF7D, 1, 4, 3⟩ ∧
    Accepted ⟨0x02F08, 1, 2, 3⟩ ∧ Accepted ⟨0x02F09, 1, 2, 3⟩ ∧ Accepted ⟨0x02F0A, 1, 2, 3⟩ ∧
    Accepted ⟨0x24003, 1, 2, 3⟩ ∧ Accepted ⟨0x00004, 1, 2, 3⟩ ∧ Accepted ⟨0x00005, 1, 2, 3⟩ := by
  refine ⟨?_, ?_, ?_, ?_, ?_, ?_, ?_⟩ <;> decide

theorem witness_StepRunsTheDecodedInstruction :
    (only ⟨0x02F08, 1, 2, 3⟩).requests = [⟨0x02F08, 1, 2, 3⟩] ∧ decode ⟨0x02F08, 1, 2, 3⟩ = .ok (.strip 1 47 true) := by
  decide

theorem witness_StepWithoutRequestChangesNothing : State.reset.requests = [] := by decide

theorem witness_StepRefinesRequestPseudocode :
    (only ⟨0x02F08, 0x00AB7FFFDEADBEEF, 2, 3⟩).requests = [⟨0x02F08, 0x00AB7FFFDEADBEEF, 2, 3⟩] ∧
    answer ⟨0x02F08, 0x00AB7FFFDEADBEEF, 2, 3⟩ = .response 0x00FFFFFFDEADBEEF ∧
    answer ⟨0x00006, 1, 2, 3⟩ = .refused (.reservedOp 6) ∧
    answer ⟨0x00007, 1, 2, 3⟩ = .refused (.reservedOp 7) := by decide +kernel

theorem witness_OnlyReservedCodesAreRefused :
    lastReply (step (only ⟨0x00006, 1, 2, 3⟩)) = some (.refused (.reservedOp 6)) ∧
    lastReply (step (only ⟨0x3FFFF, 1, 2, 3⟩)) = some (.refused (.reservedOp 7)) ∧
    ¬ ((ctlOp 0x3FFFD).toNat = 6 ∨ (ctlOp 0x3FFFD).toNat = 7) := by decide +kernel

theorem witness_EveryOperationIsTotal :
    (only ⟨0x00000, 1, 2, 3⟩).requests = [⟨0x00000, 1, 2, 3⟩] ∧ (ctlOp 0x00000).toNat ≤ 5 ∧
    (only ⟨0x00005, 1, 2, 3⟩).requests = [⟨0x00005, 1, 2, 3⟩] ∧ (ctlOp 0x00005).toNat ≤ 5 := by decide

theorem witness_ResponseIsAFunctionOfTheRequest :
    Accepted ⟨0x00000, 1, 2, 3⟩ ∧ Accepted ⟨0x3FFFD, 1, 2, 3⟩ := by decide

theorem witness_IssuingMoreRequestsDoesNotDisturbAStep :
    (only ⟨0x02F08, 1, 2, 3⟩).requests ≠ [] ∧ (only ⟨0x00007, 1, 2, 3⟩).requests ≠ [] := by decide

/-- A pointer poisoned at the smallest field that can be (`bpb = 54`, `tbi` set), and one in the empty field. -/
theorem witness_AddPacResponseBits :
    (∃ j k, 54 ≤ j ∧ j ≤ 55 ∧ 54 ≤ k ∧ k ≤ 55 ∧
      (0x0040000000000000 : Word).getLsbD j ≠ (0x0040000000000000 : Word).getLsbD k) ∧
    ¬ ∃ j k, 56 ≤ j ∧ j ≤ 55 ∧ 56 ≤ k ∧ k ≤ 55 ∧
      (0x0100000000000000 : Word).getLsbD j ≠ (0x0100000000000000 : Word).getLsbD k := by
  refine ⟨⟨54, 55, by decide, by decide, by decide, by decide, by decide⟩, ?_⟩
  rintro ⟨j, k, h1, h2, -⟩
  omega

/-- The code field of `p` complemented: a pointer that fails at bit 47 whatever the cipher returns. -/
theorem witness_AuthResponseBits_failure :
    ∃ ptr : Word, ptr.getLsbD 47 ≠
      (prince hardware (strip ptr 47 true) 1 (2 ^^^ 3) Config.openRcApple).getLsbD 47 := by
  cases h : (prince hardware (strip 0 47 true) 1 (2 ^^^ 3) Config.openRcApple).getLsbD 47 with
  | true => exact ⟨0, by rw [h]; decide⟩
  | false =>
    have hs : strip (bit 47) 47 true = strip 0 47 true := by decide
    exact ⟨bit 47, by rw [hs, h]; decide⟩

/-- Success: with `bpb = 55` and `tbi` set no bit is masked, so all masked bits agree. -/
theorem witness_AuthResponseBits_success (ptr p : Word) :
    ∀ j, (55 ≤ j ∧ j ≤ 54) ∨ (true = false ∧ 56 ≤ j ∧ j ≤ 63) → ptr.getLsbD j = p.getLsbD j := by
  rintro j (⟨h1, h2⟩ | ⟨h, -⟩)
  · omega
  · cases h

theorem witness_PseudoOperationsExpand :
    ctlOp 0x00004 = 4 ∧ ctlOp 0x00085 = 5 ∧ ctlRcSel 0x00085 = .apple ∧
    (7#64 ++ 0xFEDCBA9876543210#64 : BitVec 128) =
      keyPortHi 0x0000000000000007_FEDCBA9876543215 ++ (keyPortLo 0x0000000000000007_FEDCBA9876543215 ^^^ 5) := by decide

theorem witness_StepKeepsTheRunAnswered :
    Answered ⟨[⟨0x02F08, 1, 2, 3⟩], [⟨0x02F08, 0x00AB7FFFDEADBEEF, 2, 3⟩, ⟨0x00006, 1, 2, 3⟩],
      [.response 0x00FFFFFFDEADBEEF, .refused (.reservedOp 6)]⟩ ∧
    step ⟨[⟨0x02F08, 1, 2, 3⟩], [⟨0x02F08, 0x00AB7FFFDEADBEEF, 2, 3⟩, ⟨0x00006, 1, 2, 3⟩],
      [.response 0x00FFFFFFDEADBEEF, .refused (.reservedOp 6)]⟩ =
      .next ⟨[], [⟨0x02F08, 0x00AB7FFFDEADBEEF, 2, 3⟩, ⟨0x00006, 1, 2, 3⟩, ⟨0x02F08, 1, 2, 3⟩],
        [.response 0x00FFFFFFDEADBEEF, .refused (.reservedOp 6), .response (zext128 (strip 1 47 true))]⟩ :=
  ⟨by decide +kernel, rfl⟩

/-- The boundary of the last clause: as many steps as there are requests. -/
theorem witness_RunsNeverStop : (only ⟨0x00006, 1, 2, 3⟩).requests.length ≤ 1 := by decide

/-- Program 4, requests 6, 7 and 2 in this order: the request behind two refused ones gets its response (R35). -/
theorem test_run_goes_on_past_a_refusal :
    lastReply (Sys2Proof.core.run 3 { State.reset with requests :=
      [⟨0x00006, 1, 2, 3⟩, ⟨0x3FFFF, 1, 2, 3⟩,
        ⟨0x3FF7D, 0x0123456789ABCDEF, 0xFFFFFFFFFFFFFFFF, 0xFEDCBA9876543210⟩] }) =
      some (.response 0xAE25AD3CA8FA9CCF) := by decide +kernel

theorem witness_OrderOfRequestsDoesNotMatter :
    ([⟨0x00006, 1, 2, 3⟩, ⟨0x00005, 1, 2, 3⟩] : List Request).Perm [⟨0x00005, 1, 2, 3⟩, ⟨0x00006, 1, 2, 3⟩] :=
  List.Perm.swap _ _ _

/-- The premise of every statement about a valid configuration. -/
theorem witness_PrimitivesRoundTrip : TablesValid hardware := hardware_tablesValid
theorem witness_PrimitivesByNibbleAndBit : TablesValid hardware ∧ 0 < 4 ∧ 3 < 4 := ⟨hardware_tablesValid, by decide, by decide⟩
theorem witness_DiffusionCheckOnRowsSuffices : Function.Involutive (diffuse hardware) :=
  hardware_tablesValid.diffuse_involutive
theorem witness_CoreFollowsItsFiveSteps :
    (1 : Fin 12) ≤ 1 ∧ (1 : Fin 12) ≤ 5 ∧ (1 : Fin 12) ≤ 5 ∧ (5 : Fin 12) ≤ 5 ∧
    (6 : Fin 12) ≤ 6 ∧ (6 : Fin 12) ≤ 10 ∧ (6 : Fin 12) ≤ 10 ∧ (10 : Fin 12) ≤ 10 := by decide
theorem witness_MiddleLayerIsAnInvolution : TablesValid hardware := hardware_tablesValid
theorem witness_CoreAndPrinceAreBijections : TablesValid hardware := hardware_tablesValid

/-- A reflective table beside the hardware's block tables. -/
theorem witness_AlphaReflectionInvertsTheCore :
    TablesValid hardware ∧ Reflective #v[0, 1, 2, 3, 4, 5, 2, 3, 4, 5, 6, 7] 7 :=
  ⟨hardware_tablesValid, by unfold Reflective; decide⟩
theorem witness_PrinceInverseFormula :
    TablesValid hardware ∧ Reflective #v[0, 1, 2, 3, 4, 5, 2, 3, 4, 5, 6, 7] 7 := witness_AlphaReflectionInvertsTheCore

theorem witness_LinearLayersAndTheirStructure :
    (3 < 4) ∧ (0x0001_2222_3333_4444 : Word).extractLsb' (16 * 3) 16 =
      (0x0001_5555_6666_7777 : Word).extractLsb' (16 * 3) 16 := by decide

theorem witness_WhiteningKeyBits : 1 ≤ 62 ∧ 62 ≤ 62 ∧ 1 ≤ 1 := by decide

theorem witness_NumberOfCodeBits : 0 ≤ 63 ∧ 63 ≤ 63 := by decide

/-- Two pointers that differ inside the mask only, and the two ends of the position. -/
theorem witness_StripLaws :
    (0x00AB7FFFDEADBEEF : Word) &&& ~~~(pacMask 47 true) = 0x00FFFFFFDEADBEEF &&& ~~~(pacMask 47 true) ∧
    0 ≤ 55 ∧ 55 ≤ 55 := by decide

/-- One case for each way the condition can hold, at the ends of the position's range. -/
theorem witness_SignThenAuthenticateRoundTrip :
    extPoisoned 0xFF80000012345678 55 false = false ∧ extPoisoned 0x0100000000000000 63 true = false ∧
    extPoisoned 0x0123456789ABCDEF 63 false = false ∧ extPoisoned 0 0 false = false := by decide

/-- Section 9, program 3 [T0]: with EnhancedPAC the cipher's masked bits are not all 0. -/
theorem witness_PoisonedPointersFailAuthentication :
    t0.errLsbTbi ≤ 62 ∧ t0.errLsbNotbi ≤ 62 ∧ extPoisoned 0x0000800012345678 47 true = true ∧
    modifiedPrince t0 (strip 0x0000800012345678 47 true) 0x0123456789ABCDEF 0xFEDCBA9876543210 0 &&& pacMask 47 true ≠ 0 := by
  decide +kernel

theorem witness_AuthCornerCases : 55 ≤ 55 ∧ ((true = false) ∨ 52 ≤ 52) ∧ ((false = false) ∨ 63 ≤ 52) := by decide

end Sys2Proof.Tests
end

section
/-!
PROOFS. Requests and their encoding (spec/30_encoding.md): what the decoder reads for each operation code, what a step
gives the request it reads, and the statements of the encoding family.
-/

namespace Sys2Proof

/-! ## The control word (R38) -/

theorem ctlBpb_le (ctl : BitVec 18) : ctlBpb ctl ≤ 63 := Nat.le_of_lt_succ (BitVec.isLt _)

theorem ctlBpb_packCtl_of_le (op : BitVec 3) (tbi ehp ehp2 bKey rcSel : Bool) {bpb : Nat} (usage : Nibble)
    (h : bpb ≤ 63) : ctlBpb (packCtl op tbi ehp ehp2 bKey rcSel bpb usage) = bpb := by
  rw [ctlBpb_packCtl, Nat.mod_eq_of_lt (by omega)]

/-- The one-bit selector in `ctl[7]` loses nothing of the table's name (R76). -/
theorem ctlRcSel_packCtl_beq_apple (op : BitVec 3) (tbi ehp ehp2 bKey : Bool) (rc : RcTable) (bpb : Nat)
    (usage : Nibble) : ctlRcSel (packCtl op tbi ehp ehp2 bKey (rc == .apple) bpb usage) = rc := by
  rw [ctlRcSel_packCtl]
  cases rc <;> rfl

/-- R38 as Horner's scheme: each concatenation shifts what stands above by the width of the field below. -/
theorem toNat_packCtl (op : BitVec 3) (tbi ehp ehp2 bKey rcSel : Bool) {bpb : Nat} (usage : Nibble) (h : bpb ≤ 63) :
    (packCtl op tbi ehp ehp2 bKey rcSel bpb usage).toNat =
      ((((((usage.toNat <<< 6 ||| bpb) <<< 1 ||| rcSel.toNat) <<< 1 ||| bKey.toNat) <<< 1 ||| ehp2.toNat) <<< 1 |||
        ehp.toNat) <<< 1 ||| tbi.toNat) <<< 3 ||| op.toNat := by
  have hbpb : (BitVec.ofNat 6 bpb).toNat = bpb := by
    rw [BitVec.toNat_ofNat, Nat.mod_eq_of_lt (by omega)]
  simp only [packCtl, BitVec.toNat_append, BitVec.toNat_ofBool, hbpb]

/-! ## The decoder, an equation for each operation code (R40, R41, R46) -/

/-- Six codes are assigned, the others are reserved. -/
theorem op_cases (op : BitVec 3) :
    op.toNat = 0 ∨ op.toNat = 1 ∨ op.toNat = 2 ∨ op.toNat = 3 ∨ op.toNat = 4 ∨ op.toNat = 5 ∨ 6 ≤ op.toNat := by
  omega

/-- The reserved codes (R46). -/
theorem op_eq_six_or_seven {op : BitVec 3} (h : 6 ≤ op.toNat) : op.toNat = 6 ∨ op.toNat = 7 := by
  omega

section
variable {q : Request}

theorem decode_of_op_eq_zero (h : (ctlOp q.ctl).toNat = 0) :
    decode q = .ok (.strip q.a (ctlBpb q.ctl) (ctlTbi q.ctl)) := by
  simp only [decode, h]

theorem decode_of_op_eq_one (h : (ctlOp q.ctl).toNat = 1) :
    decode q = .ok (.addpac q.a (keyPortHi q.k) (keyPortLo q.k) q.b (ctlBpb q.ctl) (ctlTbi q.ctl) (ctlEhp q.ctl)
      (ctlEhp2 q.ctl)) := by
  simp only [decode, h]

theorem decode_of_op_eq_two (h : (ctlOp q.ctl).toNat = 2) :
    decode q = .ok (.auth q.a (keyPortHi q.k) (keyPortLo q.k) (ctlBKey q.ctl) q.b (ctlBpb q.ctl) (ctlTbi q.ctl)
      (ctlEhp2 q.ctl)) := by
  simp only [decode, h]

theorem decode_of_op_eq_three (h : (ctlOp q.ctl).toNat = 3) :
    decode q = .ok (.kdf (keyPortHi q.k) (keyPortLo q.k) q.a q.b (ctlUsage q.ctl)) := by
  simp only [decode, h]

theorem decode_of_op_eq_four (h : (ctlOp q.ctl).toNat = 4) :
    decode q = .ok (.mprince q.a (keyPortHi q.k) (keyPortLo q.k) q.b) := by
  simp only [decode, h]

theorem decode_of_op_eq_five (h : (ctlOp q.ctl).toNat = 5) :
    decode q = .ok (.prince q.a (keyPortHi q.k) (keyPortLo q.k) (ctlRcSel q.ctl)) := by
  simp only [decode, h]

theorem decode_of_op_reserved (h : 6 ≤ (ctlOp q.ctl).toNat) : decode q = .error (.reservedOp (ctlOp q.ctl)) := by
  obtain h' | h' := op_eq_six_or_seven h <;> simp only [decode, h']

/-- Decoding an assigned code gives an instruction of that code whose index fits its field (R25, R44). -/
theorem exists_decode_eq_ok (h : (ctlOp q.ctl).toNat ≤ 5) :
    ∃ i, decode q = .ok i ∧ WellFormed i = true ∧ opOf i = ctlOp q.ctl := by
  have hbpb := decide_eq_true (ctlBpb_le q.ctl)
  obtain hop | hop | hop | hop | hop | hop | hop := op_cases (ctlOp q.ctl)
  · exact ⟨_, decode_of_op_eq_zero hop, hbpb, BitVec.eq_of_toNat_eq hop.symm⟩
  · exact ⟨_, decode_of_op_eq_one hop, hbpb, BitVec.eq_of_toNat_eq hop.symm⟩
  · exact ⟨_, decode_of_op_eq_two hop, hbpb, BitVec.eq_of_toNat_eq hop.symm⟩
  · exact ⟨_, decode_of_op_eq_three hop, rfl, BitVec.eq_of_toNat_eq hop.symm⟩
  · exact ⟨_, decode_of_op_eq_four hop, rfl, BitVec.eq_of_toNat_eq hop.symm⟩
  · exact ⟨_, decode_of_op_eq_five hop, rfl, BitVec.eq_of_toNat_eq hop.symm⟩
  · omega

end

/-! ## Decoding and encoding agree -/

@[simp] theorem ctlOp_encode (i : Instr) : ctlOp (encode i).ctl = opOf i := by
  cases i <;> exact ctlOp_packCtl _ _ _ _ _ _ _ _

theorem decode_encode (i : Instr) (h : WellFormed i = true) : decode (encode i) = .ok i := by
  have hop : (ctlOp (encode i).ctl).toNat = (opOf i).toNat := congrArg BitVec.toNat (ctlOp_encode i)
  cases i with
  | strip ptr bpb tbi =>
    rw [decode_of_op_eq_zero hop]
    simp only [encode, ctlBpb_packCtl_of_le _ _ _ _ _ _ _ (of_decide_eq_true h), ctlTbi_packCtl]
  | addpac ptr kHi kLo modifier bpb tbi ehp ehp2 =>
    rw [decode_of_op_eq_one hop]
    simp only [encode, ctlBpb_packCtl_of_le _ _ _ _ _ _ _ (of_decide_eq_true h), ctlTbi_packCtl, ctlEhp_packCtl,
      ctlEhp2_packCtl, keyPortHi_append, keyPortLo_append]
  | auth ptr kHi kLo bKey modifier bpb tbi ehp2 =>
    rw [decode_of_op_eq_two hop]
    simp only [encode, ctlBpb_packCtl_of_le _ _ _ _ _ _ _ (of_decide_eq_true h), ctlTbi_packCtl, ctlEhp2_packCtl,
      ctlBKey_packCtl, keyPortHi_append, keyPortLo_append]
  | kdf ikeyHi ikeyLo dataHi dataLo usage =>
    rw [decode_of_op_eq_three hop]
    simp only [encode, ctlUsage_packCtl, keyPortHi_append, keyPortLo_append]
  | mprince value k0 k1 modifier =>
    rw [decode_of_op_eq_four hop]
    simp only [encode, keyPortHi_append, keyPortLo_append]
  | prince value k0 k1 rc =>
    rw [decode_of_op_eq_five hop]
    simp only [encode, ctlRcSel_packCtl_beq_apple, keyPortHi_append, keyPortLo_append]

/-- Settles O1: the operation code is read back first, then each operand from its own field. -/
theorem decodeOfEncodeIsTheInstruction : Obligations.DecodeOfEncodeIsTheInstruction := decode_encode

/-- Settles O2, from the decoder's equation for each operation code. -/
theorem decodingIsTotalAndByOpAlone : Obligations.DecodingIsTotalAndByOpAlone :=
  fun _ => ⟨exists_decode_eq_ok, decode_of_op_reserved⟩

/-- Settles O3: the shifts of Horner's scheme, distributed over the ORs, add up to each field's bit position. -/
theorem controlWordIsTheNumberOfItsFields : Obligations.ControlWordIsTheNumberOfItsFields := by
  intro op tbi ehp ehp2 bKey rcSel bpb usage hbpb
  rw [toNat_packCtl op tbi ehp ehp2 bKey rcSel usage hbpb]
  simp only [Nat.shiftLeft_or_distrib, ← Nat.shiftLeft_add, Nat.reduceAdd]
  ac_rfl

/-- Settles O5: each row is one evaluation of the decoder. -/
theorem writtenOutControlWordsDecode : Obligations.WrittenOutControlWordsDecode := by
  unfold Obligations.WrittenOutControlWordsDecode
  decide

end Sys2Proof

namespace Sys2Proof.Machine

/-! ## What a step gives the request it reads (R24, R51) -/

/-- The response an instruction gets, read off `exec` and tied to it by `exec_eq_respond`. -/
def responseOf : Instr → Response
  | .strip ptr bpb tbi => zext128 (strip ptr bpb tbi)
  | .addpac ptr kHi kLo modifier bpb tbi ehp ehp2 => zext128 (addPac hardware ptr kHi kLo modifier bpb tbi ehp ehp2)
  | .auth ptr kHi kLo bKey modifier bpb tbi ehp2 => zext128 (auth hardware ptr kHi kLo bKey modifier bpb tbi ehp2)
  | .kdf ikeyHi ikeyLo dataHi dataLo usage => keyBits (kdf hardware ikeyHi ikeyLo dataHi dataLo usage)
  | .mprince value k0 k1 modifier => zext128 (modifiedPrince hardware value k0 k1 modifier)
  | .prince value k0 k1 rc => zext128 (prince hardware value k0 k1 (selectTable hardware rc))

/-- What the outcome of decoding gets: a response, or the refusal with its reason. -/
def replyOf : Except DecodeError Instr → Reply
  | .ok i => .response (responseOf i)
  | .error e => .refused e

/-- No operation reads the run: each enters one response, which its operands fix. -/
theorem exec_eq_respond (i : Instr) (s : State) : exec i s = respond (responseOf i) s := by
  cases i <;> rfl

/-- All that a step with a waiting request can do. -/
theorem step_of_requests_eq_cons {s : State} {q : Request} {rest : List Request} (h : s.requests = q :: rest) :
    step s = .next { requests := rest, served := s.served ++ [q], replies := s.replies ++ [replyOf (decode q)] } := by
  have htake := (takeRequest_eq_some_iff s _ q).mpr ⟨rest, h, rfl⟩
  cases hdec : decode q with
  | ok i =>
    simp only [step, htake, hdec]
    exact exec_eq_respond i _
  | error e =>
    simp only [step, htake, hdec]
    rfl

theorem step_issueNext (q : Request) (s : State) :
    step (issueNext q s) =
      .next { s with served := s.served ++ [q], replies := s.replies ++ [replyOf (decode q)] } :=
  step_of_requests_eq_cons (issueNext_requests q s)

theorem step_issueNext_of_decode_eq_ok {q : Request} {i : Instr} (h : decode q = .ok i) (s : State) :
    step (issueNext q s) =
      .next { s with served := s.served ++ [q], replies := s.replies ++ [.response (responseOf i)] } := by
  rw [step_issueNext, h, replyOf]

/-! ## Ignored inputs (R42) -/

/-- The decoder reads only the ports and fields that R41 lists for the operation. -/
theorem decode_congr {q q' : Request} (h : SameUsedInputs q q') : decode q = decode q' := by
  obtain ⟨hop, ha, hb, hk, hptr, hehp, hehp2, hbKey, husage, hrcSel⟩ := h
  have hop' := congrArg BitVec.toNat hop.symm
  obtain h | h | h | h | h | h | h := op_cases (ctlOp q.ctl)
  · obtain ⟨hbpb, htbi⟩ := hptr (by simp [h])
    rw [decode_of_op_eq_zero h, decode_of_op_eq_zero (hop'.trans h), ha, hbpb, htbi]
  · obtain ⟨hbpb, htbi⟩ := hptr (by simp [h])
    rw [decode_of_op_eq_one h, decode_of_op_eq_one (hop'.trans h), ha, hb (by simp [h]), hk (by simp [h]), hbpb, htbi,
      hehp h, hehp2 (by simp [h])]
  · obtain ⟨hbpb, htbi⟩ := hptr (by simp [h])
    rw [decode_of_op_eq_two h, decode_of_op_eq_two (hop'.trans h), ha, hb (by simp [h]), hk (by simp [h]), hbpb, htbi,
      hehp2 (by simp [h]), hbKey h]
  · rw [decode_of_op_eq_three h, decode_of_op_eq_three (hop'.trans h), ha, hb (by simp [h]), hk (by simp [h]),
      husage h]
  · rw [decode_of_op_eq_four h, decode_of_op_eq_four (hop'.trans h), ha, hb (by simp [h]), hk (by simp [h])]
  · rw [decode_of_op_eq_five h, decode_of_op_eq_five (hop'.trans h), ha, hk (by simp [h]), hrcSel h]
  · rw [decode_of_op_reserved h, decode_of_op_reserved (h.trans_eq hop'.symm), hop]

/-- Settles O6: both requests decode to one instruction, and the instruction alone fixes the response. -/
theorem ignoredInputsDoNotInfluenceTheResponse : Obligations.IgnoredInputsDoNotInfluenceTheResponse := by
  intro q q' hacc hsame
  obtain ⟨i, hi, -, -⟩ := exists_decode_eq_ok hacc
  have hi' : decode q' = .ok i := (decode_congr hsame).symm.trans hi
  exact ⟨responseOf i, fun s => ⟨step_issueNext_of_decode_eq_ok hi s, step_issueNext_of_decode_eq_ok hi' s⟩⟩

/-! ## The request-level pseudocode (R51) -/

theorem selectTable_ctlRcSel (C : Config) (ctl : BitVec 18) :
    selectTable C (ctlRcSel ctl) = if ctl[7] then C.rcApple else C.rcPrince := by
  rw [ctlRcSel, BitVec.getLsbD_eq_getElem (by decide)]
  cases ctl[7] <;> rfl

/-- R51 answers each request as decoding and then executing it does. -/
theorem replyOf_decode (q : Request) : replyOf (decode q) = answer q := by
  have hop : (q.ctl.extractLsb 2 0).toNat = (ctlOp q.ctl).toNat := rfl
  obtain h | h | h | h | h | h | h := op_cases (ctlOp q.ctl)
  · simp only [decode_of_op_eq_zero h, answer, hop, h]
    rfl
  · simp only [decode_of_op_eq_one h, answer, hop, h]
    rfl
  · simp only [decode_of_op_eq_two h, answer, hop, h]
    rfl
  · simp only [decode_of_op_eq_three h, answer, hop, h]
    rfl
  · simp only [decode_of_op_eq_four h, answer, hop, h]
    rfl
  · simp only [decode_of_op_eq_five h, replyOf, responseOf, selectTable_ctlRcSel, answer, hop, h]
    rfl
  · obtain h' | h' := op_eq_six_or_seven h <;>
      (simp only [decode_of_op_reserved h, answer, hop, h']; rfl)

/-- Settles O9, by the equality of the two request-level functions. -/
theorem stepRefinesRequestPseudocode : Obligations.StepRefinesRequestPseudocode := by
  intro s q rest h
  rw [step_of_requests_eq_cons h, replyOf_decode]

/-! ## Pseudo-operations (R50) -/

/-- R75 on responses: MPRINCE is PRINCE under Apple's table with the modifier folded into the second key half. -/
theorem responseOf_mprince (value k0 k1 modifier : Word) :
    responseOf (.mprince value k0 k1 modifier) = responseOf (.prince value k0 (k1 ^^^ modifier) .apple) := rfl

/-- Settles O21: the two requests decode to instructions with one response; the expansions are the definitions. -/
theorem pseudoOperationsExpand : Obligations.PseudoOperationsExpand := by
  refine ⟨fun q q' hop hop' hrc ha hk => ?_, fun _ _ _ _ _ => rfl, fun _ _ => ⟨rfl, rfl⟩⟩
  have hdec := decode_of_op_eq_four (q := q) (congrArg BitVec.toNat hop)
  have hdec' : decode q' = .ok (.prince q.a (keyPortHi q.k) (keyPortLo q.k ^^^ q.b) .apple) := by
    rw [decode_of_op_eq_five (congrArg BitVec.toNat hop'), hrc, ha, hk, keyPortHi_append, keyPortLo_append]
  refine ⟨responseOf (.mprince q.a (keyPortHi q.k) (keyPortLo q.k) q.b), fun s => ⟨?_, ?_⟩⟩
  · exact step_issueNext_of_decode_eq_ok hdec s
  · rw [responseOf_mprince]
    exact step_issueNext_of_decode_eq_ok hdec' s

end Sys2Proof.Machine
end

section
/-!
PROOFS. The block primitives (spec/40_block_primitives.md): the derived inverse tables undo the forward tables on both
sides, the diffusion's bits are parities, and the statements of the block primitives' family.
-/

namespace Sys2Proof.Machine

/-! ## The derived inverse tables, the other way round (R54, R57) -/

/-- An injective S-box takes every value, so that the inverse derived from it undoes it on both sides. -/
theorem sbox_sboxInv {C : Config} (h : Function.Injective fun v : Nibble => C.sbox[v.toNat]) (v : Nibble) :
    C.sbox[(sboxInv C v).toNat] = v := by
  have hleft : Function.LeftInverse (sboxInv C) fun v : Nibble => C.sbox[v.toNat] := sboxInv_sbox h
  exact hleft.rightInverse_of_surjective (Finite.injective_iff_surjective.mp h) v

/-- An injective `SR` takes every position, so that the inverse derived from it undoes it on both sides. -/
theorem sr_srInv {C : Config} (h : Function.Injective fun n : Fin 16 => C.sr[n]) (n : Fin 16) :
    C.sr[srInv C n] = n := by
  have hleft : Function.LeftInverse (srInv C) fun n : Fin 16 => C.sr[n] := srInv_sr h
  exact hleft.rightInverse_of_surjective (Finite.injective_iff_surjective.mp h) n

/-! ## The round trips (R64) -/

section
variable {C : Config} (hC : TablesValid C) (x : Word)
include hC

theorem unsubstitute_substitute : unsubstitute C (substitute C x) = x :=
  eq_of_nib_eq fun n => by rw [nib_unsubstitute, nib_substitute, sboxInv_sbox hC.sbox_injective]

/-- R56 tied to `SBOX` alone. -/
theorem sbox_nib_unsubstitute (n : Fin 16) : C.sbox[(nib (unsubstitute C x) n).toNat] = nib x n := by
  simp only [nib_unsubstitute]
  exact sbox_sboxInv hC.sbox_injective _

theorem substitute_unsubstitute : substitute C (unsubstitute C x) = x :=
  eq_of_nib_eq fun n => by rw [nib_substitute, sbox_nib_unsubstitute hC]

theorem unpermute_permute : unpermute C (permute C x) = x :=
  eq_of_nib_eq fun n => by rw [nib_unpermute, nib_permute, sr_srInv hC.sr_injective]

/-- R59 tied to `SR` alone. -/
theorem nib_unpermute_sr (n : Fin 16) : nib (unpermute C x) C.sr[n] = nib x n := by
  rw [nib_unpermute, srInv_sr hC.sr_injective]

theorem permute_unpermute : permute C (unpermute C x) = x :=
  eq_of_nib_eq fun n => by rw [nib_permute, nib_unpermute_sr hC]

theorem diffuse_diffuse : diffuse C (diffuse C x) = x := hC.diffuse_involutive x

theorem unmix_mix : unmix C (mix C x) = x := by
  rw [unmix, mix, unpermute_permute hC, diffuse_diffuse hC]

theorem mix_unmix : mix C (unmix C x) = x := by
  rw [mix, unmix, diffuse_diffuse hC, permute_unpermute hC]

end

/-- Settles O29: the nibble layers undo each other nibble by nibble, and `mix` and `unmix` are composed of layers that
do. -/
theorem primitivesRoundTrip : Obligations.PrimitivesRoundTrip := fun _ hC x =>
  ⟨unsubstitute_substitute hC x, substitute_unsubstitute hC x, unpermute_permute hC x, permute_unpermute hC x,
    diffuse_diffuse hC x, unmix_mix hC x, mix_unmix hC x⟩

/-! ## The diffusion, bit by bit (R60) -/

/-- The parity of a count, one element at a time. -/
theorem decide_countP_cons_odd {α : Type} (p : α → Bool) (a : α) (l : List α) :
    decide ((a :: l).countP p % 2 = 1) = (p a ^^ decide (l.countP p % 2 = 1)) := by
  cases ha : p a with
  | false => rw [List.countP_cons_of_neg (by simp [ha]), Bool.false_xor]
  | true =>
    rw [List.countP_cons_of_pos ha, Bool.true_xor, ← decide_not, decide_eq_decide]
    omega

/-- A bit of the fold of `diffuse`, from any start and over any rows: each selected row with that bit set flips it. -/
theorem getLsbD_diffuse_fold (rows : Fin 64 → Word) (x : Word) (j : Nat) (l : List (Fin 64)) (t : Word) :
    (l.foldl (fun a i => if x.getLsbD (63 - i.val) then a ^^^ rows i else a) t).getLsbD j =
      (t.getLsbD j ^^ decide ((l.countP fun i => x.getLsbD (63 - i.val) && (rows i).getLsbD j) % 2 = 1)) := by
  induction l generalizing t with
  | nil => simp
  | cons i l ih =>
    rw [List.foldl_cons, ih, decide_countP_cons_odd, ← Bool.xor_assoc]
    congr 1
    cases x.getLsbD (63 - i.val) with
    | false => simp
    | true => exact BitVec.getLsbD_xor

theorem getLsbD_diffuse (C : Config) (x : Word) (j : Nat) :
    (diffuse C x).getLsbD j =
      decide (((List.finRange 64).countP fun i => x.getLsbD (63 - i.val) && C.mrow[i].getLsbD j) % 2 = 1) := by
  have h := getLsbD_diffuse_fold (fun i => C.mrow[i]) x j (List.finRange 64) 0#64
  rwa [BitVec.getLsbD_zero, Bool.false_xor] at h

/-- Settles O28: each clause is the law of one primitive. -/
theorem primitivesByNibbleAndBit : Obligations.PrimitivesByNibbleAndBit := by
  refine ⟨fun x n k hk => ?_, fun C x n => ⟨nib_substitute C x n, nib_permute C x n⟩, getLsbD_diffuse,
    fun C hC x n => ⟨sbox_nib_unsubstitute hC x n, nib_unpermute_sr hC x n⟩⟩
  rw [getLsbD_nib, decide_eq_true hk, Bool.true_and]

end Sys2Proof.Machine
end

section
/-!
PROOFS. The PRINCE core permutation (spec/41_prince_core.md): the state after each of its rounds, and the statement of
the core's family.
-/

namespace Sys2Proof.Machine

/-! ## The states between the rounds (R68, R69) -/

/-- The state after round `r` of a run of rounds that begins behind round `start` with the state `x`; up to `start` no
round has run. Tied to the folds of `princeCore` by `foldl_forward_rounds` and `foldl_backward_rounds`. -/
def stateAfter (round : Word → Fin 12 → Word) (start : Nat) (x : Word) : Nat → Word
  | 0 => x
  | r + 1 => if start ≤ r then round (stateAfter round start x r) (Fin.ofNat 12 (r + 1)) else x

section
variable (round : Word → Fin 12 → Word) {start : Nat} (x : Word)

theorem stateAfter_of_le {r : Nat} (h : r ≤ start) : stateAfter round start x r = x := by
  cases r with
  | zero => rfl
  | succ r => exact if_neg (Nat.not_le.mpr h)

theorem stateAfter_succ {r : Nat} (h : start ≤ r) :
    stateAfter round start x (r + 1) = round (stateAfter round start x r) (Fin.ofNat 12 (r + 1)) := if_pos h

/-- Each round takes the state after the one before it, and its own index. -/
theorem stateAfter_of_lt {r : Fin 12} (h : start < r.val) :
    stateAfter round start x r.val = round (stateAfter round start x (r - 1).val) r := by
  have hpred : r.val = (r - 1).val + 1 := by
    rw [Fin.val_sub_one_of_ne_zero (Fin.pos_iff_ne_zero.mp (Nat.zero_lt_of_lt h))]
    omega
  calc stateAfter round start x r.val
      = stateAfter round start x ((r - 1).val + 1) := by rw [← hpred]
    _ = round (stateAfter round start x (r - 1).val) (Fin.ofNat 12 ((r - 1).val + 1)) :=
        stateAfter_succ round x (by omega)
    _ = round (stateAfter round start x (r - 1).val) r := by rw [← hpred, Fin.ofNat_val_eq_self]

/-- Step 2 runs rounds 1 to 5. -/
theorem foldl_forward_rounds : ([1, 2, 3, 4, 5] : List (Fin 12)).foldl round x = stateAfter round 0 x 5 := rfl

/-- Step 4 runs rounds 6 to 10. -/
theorem foldl_backward_rounds : ([6, 7, 8, 9, 10] : List (Fin 12)).foldl round x = stateAfter round 5 x 10 := rfl

end

section
variable (C : Config) (rc : RoundConstantTable) (s rk : Word)

/-- The core's states from the whitened input on: after step 1 at index 0, after round `r` of step 2 at index `r`. -/
def forwardState : Nat → Word := stateAfter (forwardRound C rc rk) 0 (s ^^^ rk ^^^ rc[0])

/-- The core's states from the middle layer on: after step 3 at index 5, after round `r` of step 4 at index `r`. -/
def backwardState : Nat → Word := stateAfter (backwardRound C rc rk) 5 (middle C (forwardState C rc s rk 5))

theorem forwardState_zero : forwardState C rc s rk 0 = s ^^^ rk ^^^ rc[0] := stateAfter_of_le _ _ (Nat.le_refl 0)

theorem forwardState_of_pos {r : Fin 12} (h : 1 ≤ r) :
    forwardState C rc s rk r.val = forwardRound C rc rk (forwardState C rc s rk (r - 1).val) r :=
  stateAfter_of_lt _ _ h

theorem backwardState_five : backwardState C rc s rk 5 = middle C (forwardState C rc s rk 5) :=
  stateAfter_of_le _ _ (Nat.le_refl 5)

theorem backwardState_of_six_le {r : Fin 12} (h : 6 ≤ r) :
    backwardState C rc s rk r.val = backwardRound C rc rk (backwardState C rc s rk (r - 1).val) r :=
  stateAfter_of_lt _ _ h

/-- Step 5 whitens the state after round 10. -/
theorem princeCore_eq_backwardState_ten :
    princeCore C rc s rk = backwardState C rc s rk 10 ^^^ rc[11] ^^^ rk := by
  simp only [princeCore, foldl_forward_rounds, foldl_backward_rounds, backwardState, forwardState]

end

/-- Settles O34: the two sequences are the states between the rounds, and each clause is the law of one step. -/
theorem coreFollowsItsFiveSteps : Obligations.CoreFollowsItsFiveSteps := fun C rc s rk =>
  ⟨fun r => forwardState C rc s rk r.val, fun r => backwardState C rc s rk r.val,
    forwardState_zero C rc s rk, fun _ hfirst _ => forwardState_of_pos C rc s rk hfirst,
    backwardState_five C rc s rk, fun _ hfirst _ => backwardState_of_six_le C rc s rk hfirst,
    princeCore_eq_backwardState_ten C rc s rk⟩

end Sys2Proof.Machine
end

section
/-!
PROOFS. The PRINCE and Modified PRINCE ciphers (spec/42_prince_cipher.md): the bits of the whitening key, the responses
of PRINCE and MPRINCE, and the statements of the ciphers' family.
-/

namespace Sys2Proof.Machine

/-! ## The whitening key (R73) -/

section
variable (k0 : Word)

theorem ror1_eq_rotateRight : ror1 k0 = k0.rotateRight 1 := by
  have hlow : (k0 &&& 1) <<< 63 = k0 <<< 63 := by
    apply BitVec.eq_of_getLsbD_eq
    intro i hi
    obtain rfl | hne := eq_or_ne i 63
    · simp
    · simp [show i < 63 by omega]
  rw [ror1, hlow, BitVec.rotateRight_def]

theorem whiteningKey_eq_rotateRight : whiteningKey k0 = k0.rotateRight 1 ^^^ (k0 >>> 63) := by
  rw [whiteningKey, ror1_eq_rotateRight]

/-- The rotation moves each bit one place down and bit 0 to the top. -/
theorem getLsbD_rotateRight_one {i : Nat} (h : i ≤ 63) :
    (k0.rotateRight 1).getLsbD i = k0.getLsbD ((i + 1) % 64) := by
  rw [BitVec.getLsbD_rotateRight]
  obtain rfl | hlt := Nat.eq_or_lt_of_le h
  · simp
  · simp [hlt, Nat.mod_eq_of_lt (show i + 1 < 64 by omega), Nat.add_comm]

/-- The shifted `k0` reaches bit 0 only. -/
theorem getLsbD_whiteningKey_of_pos {i : Nat} (hpos : 1 ≤ i) (h : i ≤ 63) :
    (whiteningKey k0).getLsbD i = k0.getLsbD ((i + 1) % 64) := by
  rw [whiteningKey_eq_rotateRight, BitVec.getLsbD_xor, BitVec.getLsbD_ushiftRight,
    BitVec.getLsbD_of_ge k0 (63 + i) (by omega), Bool.xor_false, getLsbD_rotateRight_one k0 h]

theorem getLsbD_whiteningKey_sixtyThree : (whiteningKey k0).getLsbD 63 = k0.getLsbD 0 :=
  getLsbD_whiteningKey_of_pos k0 (by decide) (by decide)

theorem getLsbD_whiteningKey_of_inner {i : Nat} (hpos : 1 ≤ i) (h : i ≤ 62) :
    (whiteningKey k0).getLsbD i = k0.getLsbD (i + 1) := by
  rw [getLsbD_whiteningKey_of_pos k0 hpos (by omega), Nat.mod_eq_of_lt (by omega)]

theorem getLsbD_whiteningKey_zero : (whiteningKey k0).getLsbD 0 = (k0.getLsbD 1 ^^ k0.getLsbD 63) := by
  rw [whiteningKey_eq_rotateRight, BitVec.getLsbD_xor, BitVec.getLsbD_ushiftRight,
    getLsbD_rotateRight_one k0 (by decide)]

/-- What fixes the whitening key: its two ends and every bit between them. -/
theorem getLsbD_whiteningKey_cases :
    (whiteningKey k0).getLsbD 63 = k0.getLsbD 0 ∧ (whiteningKey k0).getLsbD 0 = (k0.getLsbD 1 ^^ k0.getLsbD 63) ∧
      ∀ i, 1 ≤ i → i ≤ 62 → (whiteningKey k0).getLsbD i = k0.getLsbD (i + 1) :=
  ⟨getLsbD_whiteningKey_sixtyThree k0, getLsbD_whiteningKey_zero k0, fun _ => getLsbD_whiteningKey_of_inner k0⟩

end

@[simp] theorem whiteningKey_zero : whiteningKey 0#64 = 0#64 := by decide

/-- Settles O40: the rotation's bits, which the shifted `k0` changes at bit 0 only. -/
theorem whiteningKeyBits : Obligations.WhiteningKeyBits := fun k0 =>
  ⟨whiteningKey_eq_rotateRight k0, getLsbD_whiteningKey_sixtyThree k0,
    fun _ => getLsbD_whiteningKey_of_inner k0, getLsbD_whiteningKey_zero k0⟩

/-! ## The responses of PRINCE and MPRINCE (R79, R80) -/

section
variable (value k0 k1 : Word) (s : State)

/-- R74, R79: the core between the two whitenings, and nothing else of the state. -/
theorem exec_prince (rc : RcTable) :
    exec (.prince value k0 k1 rc) s =
      .next { s with replies := s.replies ++
        [.response ((princeCore hardware (selectTable hardware rc) (value ^^^ k0) k1 ^^^
          whiteningKey k0).setWidth 128)] } :=
  exec_eq_respond _ s

/-- R75, R80: MPRINCE is PRINCE under Apple's table with the modifier folded into the second key half. -/
theorem exec_mprince (modifier : Word) :
    exec (.mprince value k0 k1 modifier) s = exec (.prince value k0 (k1 ^^^ modifier) .apple) s := by
  rw [exec_eq_respond, exec_eq_respond, responseOf_mprince]

end

theorem selectTable_hardware_prince : selectTable hardware .prince = rcPrinceDefault := rfl

theorem selectTable_hardware_apple : selectTable hardware .apple = Config.openRcApple := rfl

/-- Settles O19: the key is the whitening key, the table the selected one. -/
theorem princeResponse : Obligations.PrinceResponse := by
  intro value k0 k1 rc s
  refine ⟨whiteningKey k0, selectTable hardware rc, getLsbD_whiteningKey_cases k0, ?_, ?_,
    exec_prince value k0 k1 s rc⟩
  · rintro rfl
    exact selectTable_hardware_prince
  · rintro rfl
    exact selectTable_hardware_apple

/-- Settles O18: PRINCE's response under Apple's table, the modifier in the round key. -/
theorem mprinceResponse : Obligations.MprinceResponse := by
  intro value k0 k1 modifier s
  refine ⟨whiteningKey k0, getLsbD_whiteningKey_cases k0, ?_⟩
  rw [exec_mprince, exec_prince, selectTable_hardware_apple]

/-! ## The value to pin (R81) -/

/-- With the first key half 0 both whitenings vanish. -/
theorem prince_zero_left_key (C : Config) (value k1 : Word) (rc : RoundConstantTable) :
    prince C value 0 k1 rc = princeCore C rc value k1 := by
  simp only [prince, BitVec.ofNat_eq_ofNat, whiteningKey_zero, BitVec.xor_zero]

theorem mprinceZeroVector_eq_princeCore (C : Config) : mprinceZeroVector C = princeCore C C.rcApple 0 0 :=
  prince_zero_left_key C 0 0 C.rcApple

/-- Settles O22: MPRINCE answers the cipher on zeros, which is the core on zeros. -/
theorem pinnedVectorIsTheCoreOnZero : Obligations.PinnedVectorIsTheCoreOnZero := by
  intro s
  have hvector : mprinceZeroVector hardware = princeCore hardware Config.openRcApple 0 0 :=
    mprinceZeroVector_eq_princeCore hardware
  have hexec : exec (.mprince 0 0 0 0) s = respond (zext128 (mprinceZeroVector hardware)) s := exec_eq_respond _ s
  refine ⟨?_, hvector⟩
  rw [hexec, hvector]
  rfl

end Sys2Proof.Machine
end

section
/-!
PROOFS. The key-derivation function (spec/43_kdf.md): the two modifiers by bit and by number, the response of KDF, and
the statements of the family.
-/

namespace Sys2Proof.Machine

/-! ## The two modifiers (R82) -/

section
variable (usage : Nibble)

theorem kdfModifier1_eq_masked :
    kdfModifier1 usage = (usage.setWidth 64 &&& bit 3) <<< 2 ||| (usage.setWidth 64 &&& onesBelow 3) := rfl

theorem kdfModifier2_eq_or_bit : kdfModifier2 usage = kdfModifier1 usage ||| bit 4 := rfl

/-- The low mask keeps bits 2:0 in place; of the upper part only bit 3 is left, and the shift takes it to bit 5. -/
theorem getLsbD_kdfModifier1 (j : Nat) :
    (kdfModifier1 usage).getLsbD j =
      (decide (j < 3) && usage.getLsbD j || decide (j = 5) && usage.getLsbD 3) := by
  simp only [kdfModifier1_eq_masked, BitVec.getLsbD_or, BitVec.getLsbD_shiftLeft, BitVec.getLsbD_and,
    BitVec.getLsbD_setWidth, getLsbD_bit, getLsbD_onesBelow]
  obtain hlow | hmoved | ⟨hlow, hne⟩ : j < 3 ∨ j = 5 ∨ ¬ j < 3 ∧ j ≠ 5 := by omega
  · have hsource : j - 2 ≠ 3 := by omega
    have hword : j < 64 := by omega
    have hne : j ≠ 5 := by omega
    simp [hlow, hsource, hword, hne]
  · simp [hmoved]
  · have hsource : j - 2 ≠ 3 := by omega
    simp [hlow, hne, hsource]

theorem getLsbD_kdfModifier2 (j : Nat) :
    (kdfModifier2 usage).getLsbD j = ((kdfModifier1 usage).getLsbD j || decide (j = 4)) := by
  have hbit : (bit 4).getLsbD j = decide (j = 4) := by
    rw [getLsbD_bit, ← Bool.decide_and, decide_eq_decide]
    omega
  rw [kdfModifier2_eq_or_bit, BitVec.getLsbD_or, hbit]

end

/-- R82's table, a number per usage code: the sixteen codes are compared one by one. -/
theorem kdfModifier1_eq_ofNat :
    ∀ usage : Nibble, kdfModifier1 usage = BitVec.ofNat 64 (0x20 * (usage.toNat / 8) + usage.toNat % 8) := by
  decide

theorem kdfModifier2_eq_ofNat :
    ∀ usage : Nibble, kdfModifier2 usage = BitVec.ofNat 64 (0x20 * (usage.toNat / 8) + 0x10 + usage.toNat % 8) := by
  decide

/-- Settles O42: the first modifier's bits, and bit 4 added in the second. -/
theorem kdfModifierBits : Obligations.KdfModifierBits := by
  intro usage j
  refine ⟨getLsbD_kdfModifier1 usage j, ?_⟩
  rw [getLsbD_kdfModifier2, getLsbD_kdfModifier1, Bool.or_right_comm]

/-! ## The response of KDF (R83, R86) -/

/-- R75, R83: a half of the derived Key is two PRINCE calls under Apple's table, the second on the first's result. -/
theorem kdfHalf_eq_prince_prince (C : Config) (ikeyHi ikeyLo dataHi dataLo modifier : Word) :
    kdfHalf C ikeyHi ikeyLo dataHi dataLo modifier =
      prince C (prince C dataHi ikeyHi (ikeyLo ^^^ modifier) C.rcApple ^^^ dataLo) ikeyHi (ikeyLo ^^^ modifier)
        C.rcApple := rfl

/-- R86: the half under `modifier1` stands in the upper Word, and nothing else of the state changes. -/
theorem exec_kdf (ikeyHi ikeyLo dataHi dataLo : Word) (usage : Nibble) (s : State) :
    exec (.kdf ikeyHi ikeyLo dataHi dataLo usage) s =
      .next { s with replies := s.replies ++
        [.response (kdfHalf hardware ikeyHi ikeyLo dataHi dataLo (kdfModifier1 usage) ++
          kdfHalf hardware ikeyHi ikeyLo dataHi dataLo (kdfModifier2 usage))] } :=
  exec_eq_respond _ s

theorem rcApple_hardware : hardware.rcApple = Config.openRcApple := selectTable_hardware_apple

/-- Settles O17: both halves as chains of two ciphers, each under its modifier's number. -/
theorem kdfResponseChains : Obligations.KdfResponseChains := by
  intro ikeyHi ikeyLo dataHi dataLo usage s
  rw [exec_kdf, kdfHalf_eq_prince_prince, kdfHalf_eq_prince_prince, kdfModifier1_eq_ofNat, kdfModifier2_eq_ofNat,
    rcApple_hardware]

end Sys2Proof.Machine
end

section
/-!
PROOFS. The pointer-authentication datapath (spec/44_pac_datapath.md): the code field and the poisoned pointer in the
statements' own terms, AddPAC and Auth case by case, and the statements of the family.
-/

namespace Sys2Proof.Machine

/-! ## The code field (R91) -/

theorem getLsbD_pacMask_iff (bpb : Nat) (tbi : Bool) (j : Nat) :
    (pacMask bpb tbi).getLsbD j = true ↔ (bpb ≤ j ∧ j ≤ 54) ∨ (tbi = false ∧ 56 ≤ j ∧ j ≤ 63) := by
  simp only [getLsbD_pacMask, Bool.or_eq_true, Bool.and_eq_true, Bool.not_eq_true', decide_eq_true_eq, and_assoc]

/-- Below bit 64 the field's upper end needs no bound. -/
theorem getLsbD_pacMask_iff_of_lt (bpb : Nat) (tbi : Bool) {j : Nat} (hj : j < 64) :
    (pacMask bpb tbi).getLsbD j = true ↔ (bpb ≤ j ∧ j ≤ 54) ∨ (tbi = false ∧ 56 ≤ j) := by
  rw [getLsbD_pacMask_iff, and_iff_left (Nat.le_of_lt_succ hj)]

/-- Two Words have equal masked parts exactly when they agree at every bit of the mask. -/
theorem and_eq_and_iff_getLsbD_eq (x y m : Word) :
    x &&& m = y &&& m ↔ ∀ j, m.getLsbD j = true → x.getLsbD j = y.getLsbD j := by
  constructor
  · intro heq j hm
    have hbit := congrArg (fun w : Word => w.getLsbD j) heq
    simpa only [BitVec.getLsbD_and, hm, Bool.and_true] using hbit
  · intro hagree
    apply BitVec.eq_of_getLsbD_eq
    intro j _
    rw [BitVec.getLsbD_and, BitVec.getLsbD_and]
    cases hm : m.getLsbD j with
    | true => rw [hagree j hm]
    | false => rw [Bool.and_false, Bool.and_false]

/-! ## One-Word responses (R39, R77) -/

/-- A statement on the bits of a one-Word response is one on the Word's bits; above them stands 0. -/
theorem getLsbD_zext128_eq_ite (w : Word) (j : Nat) :
    (zext128 w).getLsbD j = if j < 64 then w.getLsbD j else false := by
  rw [getLsbD_zext128]
  split
  · rfl
  next hj => exact BitVec.getLsbD_of_ge w j (Nat.le_of_not_lt hj)

theorem modifiedPrince_hardware (value k0 k1 modifier : Word) :
    modifiedPrince hardware value k0 k1 modifier =
      prince hardware value k0 (k1 ^^^ modifier) Config.openRcApple := by
  rw [modifiedPrince, rcApple_hardware]

/-! ## STRIP (R93) -/

/-- Settles O14: a masked bit is bit 55 of the pointer, any other bit its own. -/
theorem stripResponseBits : Obligations.StripResponseBits := by
  intro ptr bpb tbi s
  refine ⟨zext128 (strip ptr bpb tbi), exec_eq_respond _ s, fun j => ?_⟩
  rw [getLsbD_zext128_eq_ite]
  refine if_ctx_congr Iff.rfl (fun hj => ?_) fun _ => rfl
  simp only [getLsbD_strip, getLsbD_pacMask_iff_of_lt bpb tbi hj]

/-! ## ADDPAC (R95, R96) -/

/-- A pointer is poisoned exactly when two bits of its extension field differ. -/
theorem extPoisoned_iff_exists_ne (ptr : Word) (bpb : Nat) (tbi : Bool) :
    extPoisoned ptr bpb tbi = true ↔
      ∃ j k, bpb ≤ j ∧ j ≤ topBit tbi ∧ bpb ≤ k ∧ k ≤ topBit tbi ∧ ptr.getLsbD j ≠ ptr.getLsbD k := by
  constructor
  · intro hpoisoned
    by_contra hequal
    push Not at hequal
    have hclean : extPoisoned ptr bpb tbi = false :=
      (extPoisoned_eq_false_iff ptr bpb tbi).mpr fun j hlow htop =>
        hequal j (topBit tbi) hlow htop (hlow.trans htop) le_rfl
    rw [hclean] at hpoisoned
    cases hpoisoned
  · rintro ⟨j, k, hj, hjtop, hk, hktop, hne⟩
    by_contra hclean
    have hequal := (extPoisoned_eq_false_iff ptr bpb tbi).mp (Bool.eq_false_of_not_eq_true hclean)
    exact hne ((hequal j hj hjtop).trans (hequal k hk hktop).symm)

theorem bit_eq_twoPow (n : Nat) : bit n = BitVec.twoPow 64 n := (BitVec.twoPow_eq 64 n).symm

section
variable (p ptr : Word) {bpb : Nat} {tbi : Bool}

theorem signCode_of_poisoned_of_ehp (h : extPoisoned ptr bpb tbi = true) (ehp2 : Bool) :
    signCode p ptr bpb tbi true ehp2 = 0 := by
  simp only [signCode, h, Bool.and_self, if_true]

theorem signCode_of_poisoned_of_neither (h : extPoisoned ptr bpb tbi = true) :
    signCode p ptr bpb tbi false false = p ^^^ bit (topBit tbi - 1) := by
  simp only [signCode, h, Bool.and_false, Bool.not_false, Bool.and_self, Bool.false_eq_true, if_false, if_true]

theorem signCode_of_poisoned_of_ehp2 (h : extPoisoned ptr bpb tbi = true) :
    signCode p ptr bpb tbi false true = p := by
  simp only [signCode, h, Bool.and_false, Bool.not_true, Bool.false_eq_true, if_false]

theorem signCode_of_not_poisoned (h : ¬ extPoisoned ptr bpb tbi = true) (ehp ehp2 : Bool) :
    signCode p ptr bpb tbi ehp ehp2 = p := by
  simp only [signCode, h, Bool.false_and, Bool.false_eq_true, if_false]

end

/-- R96 step 5: the merge's two ways, as the statement writes them. -/
theorem getLsbD_pacMerge_eq_ite (ptr code m : Word) (ehp2 : Bool) (j : Nat) :
    (pacMerge ptr code m ehp2).getLsbD j =
      if m.getLsbD j = true then
        if ehp2 = true then ptr.getLsbD j ^^ code.getLsbD j else code.getLsbD j
      else ptr.getLsbD j := by
  rw [getLsbD_pacMerge]
  cases ehp2 with
  | true => simp only [Bool.true_and, if_true]
  | false => simp only [Bool.false_and, Bool.false_xor, Bool.false_eq_true, if_false]

/-- R96, R105: the merge of the code, made from the cipher's output, into the original pointer. -/
theorem exec_addpac (ptr kHi kLo modifier : Word) (bpb : Nat) (tbi ehp ehp2 : Bool) (s : State) :
    exec (.addpac ptr kHi kLo modifier bpb tbi ehp ehp2) s =
      respond (zext128 (pacMerge ptr
        (signCode (prince hardware (strip ptr bpb tbi) kHi (kLo ^^^ modifier) Config.openRcApple) ptr bpb tbi ehp ehp2)
        (pacMask bpb tbi) ehp2)) s := by
  rw [exec_eq_respond, responseOf, addPac, addPacWith, modifiedPrince_hardware]

/-- Settles O15: the code by the four cases of steps 3 and 4, then the merge bit by bit. -/
theorem addPacResponseBits : Obligations.AddPacResponseBits := by
  intro ptr kHi kLo modifier bpb tbi ehp ehp2 s p top poisoned
  have hpoisoned : poisoned ↔ extPoisoned ptr bpb tbi = true := (extPoisoned_iff_exists_ne ptr bpb tbi).symm
  refine ⟨_, signCode p ptr bpb tbi ehp ehp2, exec_addpac ptr kHi kLo modifier bpb tbi ehp ehp2 s,
    ?_, ?_, ?_, ?_, fun j => ?_⟩
  · rintro h rfl
    exact signCode_of_poisoned_of_ehp p ptr (hpoisoned.mp h) ehp2
  · rintro h rfl rfl
    rw [signCode_of_poisoned_of_neither p ptr (hpoisoned.mp h), bit_eq_twoPow]
    rfl
  · rintro h rfl rfl
    exact signCode_of_poisoned_of_ehp2 p ptr (hpoisoned.mp h)
  · intro h
    exact signCode_of_not_poisoned p ptr (mt hpoisoned.mpr h) ehp ehp2
  · rw [getLsbD_zext128_eq_ite]
    refine if_ctx_congr Iff.rfl (fun hj => ?_) fun _ => rfl
    simp only [getLsbD_pacMerge_eq_ite, getLsbD_pacMask_iff_of_lt bpb tbi hj, p]

/-! ## AUTH (R99, R100) -/

section
variable (C : Config) (p ptr : Word) (bKey : Bool) (bpb : Nat) (tbi : Bool)

theorem authWith_of_ehp2 : authWith C p ptr bKey bpb tbi true = pacMerge ptr p (pacMask bpb tbi) true := rfl

/-- Success: the stripped pointer. -/
theorem authWith_of_agree (h : ∀ j, (pacMask bpb tbi).getLsbD j = true → ptr.getLsbD j = p.getLsbD j) :
    authWith C p ptr bKey bpb tbi false = strip ptr bpb tbi := by
  simp only [authWith, Bool.false_eq_true, if_false, (and_eq_and_iff_getLsbD_eq ptr p _).mpr h, if_true]

/-- Failure: the stripped pointer with the error code written in. -/
theorem authWith_of_differ {j : Nat} (hm : (pacMask bpb tbi).getLsbD j = true)
    (hne : ptr.getLsbD j ≠ p.getLsbD j) :
    authWith C p ptr bKey bpb tbi false = authFail C (strip ptr bpb tbi) bKey tbi := by
  have hdiffer : ¬ ptr &&& pacMask bpb tbi = p &&& pacMask bpb tbi := fun heq =>
    hne ((and_eq_and_iff_getLsbD_eq ptr p _).mp heq j hm)
  simp only [authWith, Bool.false_eq_true, if_false, hdiffer]

end

/-- U9, R100: the hardware's two positions, by the upper bit of the code. -/
theorem errorLsb_hardware (tbi : Bool) : errorLsb hardware tbi = (if tbi then 53 else 61) - 1 := by
  cases tbi <;> rfl

/-- R100: an error code that lies inside the Word, by its upper bit: 01 for an A key, 10 for a B key. -/
theorem getLsbD_authFail_cases {C : Config} {tbi : Bool} {high : Nat} (hlsb : errorLsb C tbi = high - 1)
    (hpos : 1 ≤ high) (hlt : high < 64) (original : Word) (bKey : Bool) :
    (authFail C original bKey tbi).getLsbD high = bKey ∧
      (authFail C original bKey tbi).getLsbD (high - 1) = (!bKey) ∧
      ∀ j, j ≠ high → j ≠ high - 1 → (authFail C original bKey tbi).getLsbD j = original.getLsbD j := by
  have hupper : high - 1 + 1 = high := Nat.sub_add_cancel hpos
  simp only [getLsbD_authFail, hlsb, hupper]
  refine ⟨?_, ?_, fun j hhigh hlow => ?_⟩
  · have hne : high ≠ high - 1 := by omega
    simp only [hne, hlt, and_false, and_self, if_false, if_true]
  · have hltLow : high - 1 < 64 := by omega
    simp only [hltLow, and_self, if_true]
  · simp only [hhigh, hlow, and_false, if_false]

/-- R99, R106: the three steps on the cipher's output, as data in the response. -/
theorem exec_auth (ptr kHi kLo : Word) (bKey : Bool) (modifier : Word) (bpb : Nat) (tbi ehp2 : Bool) (s : State) :
    exec (.auth ptr kHi kLo bKey modifier bpb tbi ehp2) s =
      respond (zext128 (authWith hardware
        (prince hardware (strip ptr bpb tbi) kHi (kLo ^^^ modifier) Config.openRcApple) ptr bKey bpb tbi ehp2)) s := by
  rw [exec_eq_respond, responseOf, auth, modifiedPrince_hardware]

/-- Settles O16: the three outcomes EnhancedPAC2, success and failure, each by its lemma on `authWith`. -/
theorem authResponseBits : Obligations.AuthResponseBits := by
  intro ptr kHi kLo bKey modifier bpb tbi ehp2 s original p masked high
  have hmasked : ∀ j, masked j ↔ (pacMask bpb tbi).getLsbD j = true := fun j => (getLsbD_pacMask_iff bpb tbi j).symm
  refine ⟨authWith hardware p ptr bKey bpb tbi ehp2, exec_auth ptr kHi kLo bKey modifier bpb tbi ehp2 s, ?_, ?_, ?_⟩
  · rintro rfl j
    rw [authWith_of_ehp2, getLsbD_pacMerge, hmasked, Bool.true_and]
    exact ⟨fun hm => if_pos hm, fun hm => if_neg hm⟩
  · rintro rfl hagree
    exact authWith_of_agree hardware p ptr bKey bpb tbi fun j hm => hagree j ((hmasked j).mpr hm)
  · rintro rfl ⟨j, hm, hne⟩
    have hpos : 1 ≤ high := by cases tbi <;> decide
    have hlt : high < 64 := by cases tbi <;> decide
    rw [authWith_of_differ hardware p ptr bKey bpb tbi ((hmasked j).mp hm) hne]
    exact getLsbD_authFail_cases (errorLsb_hardware tbi) hpos hlt original bKey

end Sys2Proof.Machine
end

section
/-!
PROOFS. Exceptions (spec/60_exceptions.md): there are none. Every instruction responds and every step goes on, and the
statement of the family.
-/

namespace Sys2Proof.Machine

/-! ## Nothing traps (R109) -/

theorem exec_eq_next (i : Instr) (s : State) :
    exec i s = .next { s with replies := s.replies ++ [.response (responseOf i)] } := by
  rw [exec_eq_respond]
  exact (respond_eq_next_iff _ _ _).mpr rfl

/-- R123: a step with no waiting request leaves the run as it is. -/
theorem step_of_requests_eq_nil {s : State} (h : s.requests = []) : step s = .next s := by
  have htake := (takeRequest_eq_none_iff s).mpr h
  simp only [step, htake, idle]

/-- A step goes on whether or not a request waits, and whether or not that request is refused. -/
theorem exists_step_eq_next (s : State) : ∃ t, step s = .next t := by
  cases h : s.requests with
  | nil => exact ⟨s, step_of_requests_eq_nil h⟩
  | cons q rest => exact ⟨_, step_of_requests_eq_cons h⟩

/-- That faults have no constructor is not used: `step` answers `.next` on every path. -/
theorem step_ne_fault (s : State) (f : Fault) : step s ≠ .fault f := by
  obtain ⟨t, ht⟩ := exists_step_eq_next s
  simp [ht]

theorem step_of_decode_eq_ok {s : State} {q : Request} {rest : List Request} {i : Instr} (h : s.requests = q :: rest)
    (hdec : decode q = .ok i) :
    step s =
      .next { requests := rest, served := s.served ++ [q], replies := s.replies ++ [.response (responseOf i)] } := by
  rw [step_of_requests_eq_cons h, hdec, replyOf]

/-- Settles O11: a code that is not reserved decodes to an instruction, and each instruction has its response. -/
theorem everyOperationIsTotal : Obligations.EveryOperationIsTotal := by
  refine ⟨fun i s => ⟨responseOf i, exec_eq_next i s⟩, step_ne_fault, fun s q rest h hop => ?_⟩
  obtain ⟨i, hdec, -, -⟩ := exists_decode_eq_ok hop
  exact ⟨responseOf i, step_of_decode_eq_ok h hdec⟩

end Sys2Proof.Machine
end

section
/-!
PROOFS. The run (spec/10_state.md, spec/70_reset_and_hazards.md): what a step and what a number of steps do to a run and
to the requests behind the one served, and the statements about steps and runs.
-/

namespace Sys2Proof.Machine

/-! ## One step (R24, R46, R51) -/

/-- Settles O7: both sides enter the response of the instruction. -/
theorem stepRunsTheDecodedInstruction : Obligations.StepRunsTheDecodedInstruction := by
  intro s q rest i h hdec
  rw [step_of_decode_eq_ok h hdec, exec_eq_next]

/-- Settles O8: there is no request to take. -/
theorem stepWithoutRequestChangesNothing : Obligations.StepWithoutRequestChangesNothing :=
  fun _ => step_of_requests_eq_nil

/-- What a request of an assigned code gets is a response. -/
theorem exists_replyOf_decode_eq_response {q : Request} (h : Accepted q) :
    ∃ r : Response, replyOf (decode q) = .response r := by
  obtain ⟨i, hdec, -, -⟩ := exists_decode_eq_ok h
  exact ⟨responseOf i, by rw [hdec, replyOf]⟩

/-- Settles O10: the reply is the decoder's outcome, which is a refusal exactly for the reserved codes. -/
theorem onlyReservedCodesAreRefused : Obligations.OnlyReservedCodesAreRefused := by
  intro s q rest h
  refine ⟨replyOf (decode q), step_of_requests_eq_cons h, fun hop => ?_, fun hop => ?_⟩
  · rw [decode_of_op_reserved (by omega), replyOf]
  · exact exists_replyOf_decode_eq_response (show (ctlOp q.ctl).toNat ≤ 5 by omega)

/-- Settles O12: the one reply is that of the decoder's outcome, which no state enters. -/
theorem responseIsAFunctionOfTheRequest : Obligations.ResponseIsAFunctionOfTheRequest :=
  fun q => ⟨replyOf (decode q), exists_replyOf_decode_eq_response, step_issueNext q⟩

/-- Settles O13: issuing extends the list at its end, and a step takes from its front. -/
theorem issuingMoreRequestsDoesNotDisturbAStep : Obligations.IssuingMoreRequestsDoesNotDisturbAStep := by
  intro s q hne
  obtain ⟨q₀, rest, h⟩ := List.exists_cons_of_ne_nil hne
  have hissued : (issue q s).requests = q₀ :: (rest ++ [q]) := by rw [issue_requests, h, List.cons_append]
  exact ⟨_, step_of_requests_eq_cons h, step_of_requests_eq_cons hissued⟩

/-! ## Answered runs (R19, R131) -/

/-- Settles O23: a step that reads a request enters what R51 gives it; any other step changes nothing. -/
theorem stepKeepsTheRunAnswered : Obligations.StepKeepsTheRunAnswered := by
  intro s t hs hstep
  cases h : s.requests with
  | nil =>
    rw [step_of_requests_eq_nil h] at hstep
    cases hstep
    exact hs
  | cons q rest =>
    rw [stepRefinesRequestPseudocode s q rest h] at hstep
    cases hstep
    simp only [Answered, List.map_append, List.map_cons, List.map_nil, hs]

/-- Settles O24: the three lists are empty. -/
theorem resetIsTheEmptyRun : Obligations.ResetIsTheEmptyRun := ⟨rfl, rfl⟩

/-! ## Any number of steps (R35, R131) -/

/-- The state in which the first `n` waiting requests have got what R51 gives them; tied to the machine by
`run_eq_next_afterSteps`. -/
def afterSteps (n : Nat) (s : State) : State :=
  { requests := s.requests.drop n
    served := s.served ++ s.requests.take n
    replies := s.replies ++ (s.requests.take n).map answer }

theorem afterSteps_of_requests_eq_nil {s : State} (h : s.requests = []) (n : Nat) : afterSteps n s = s := by
  obtain ⟨requests, served, replies⟩ := s
  obtain rfl : requests = [] := h
  simp only [afterSteps, List.drop_nil, List.take_nil, List.map_nil, List.append_nil]

theorem afterSteps_zero (s : State) : afterSteps 0 s = s := by
  simp only [afterSteps, List.drop_zero, List.take_zero, List.map_nil, List.append_nil]

/-- Serving the first request and then `n` more is serving `n + 1`. -/
theorem afterSteps_succ_of_requests_eq_cons {s : State} {q : Request} {rest : List Request}
    (h : s.requests = q :: rest) (n : Nat) :
    afterSteps (n + 1) s =
      afterSteps n { requests := rest, served := s.served ++ [q], replies := s.replies ++ [answer q] } := by
  simp only [afterSteps, h, List.drop_succ_cons, List.take_succ_cons, List.map_cons, List.append_assoc,
    List.singleton_append]

theorem run_succ_of_step_eq_next (M : Host.Core) {s t : M.State} (h : M.step s = .next t) (n : Nat) :
    M.run (n + 1) s = M.run n t := by
  simp only [Host.Core.run, h]

/-- The run from any state, waiting or not, past refusals or not. -/
theorem run_eq_next_afterSteps (n : Nat) (s : State) : Sys2Proof.core.run n s = .next (afterSteps n s) := by
  induction n generalizing s with
  | zero => rw [afterSteps_zero]; rfl
  | succ n ih =>
    cases h : s.requests with
    | nil =>
      rw [run_succ_of_step_eq_next Sys2Proof.core (step_of_requests_eq_nil h), ih, afterSteps_of_requests_eq_nil h,
        afterSteps_of_requests_eq_nil h]
    | cons q rest =>
      rw [run_succ_of_step_eq_next Sys2Proof.core (stepRefinesRequestPseudocode s q rest h), ih,
        afterSteps_succ_of_requests_eq_cons h]

/-- As many steps as there are requests serve them all. -/
theorem run_requests_length (s : State) :
    Sys2Proof.core.run s.requests.length s =
      .next { requests := [], served := s.served ++ s.requests, replies := s.replies ++ s.requests.map answer } := by
  rw [run_eq_next_afterSteps, afterSteps, List.drop_length, List.take_length]

/-- Settles O25: `n` steps serve the first `n` requests, and none is left where there were no more. -/
theorem runsNeverStop : Obligations.RunsNeverStop := fun n s =>
  ⟨afterSteps n s, run_eq_next_afterSteps n s, rfl, rfl,
    fun hle => step_of_requests_eq_nil (List.drop_eq_nil_of_le hle)⟩

/-- Settles O26: the run of as many steps as requests. -/
theorem runAnswersEveryRequestInOrder : Obligations.RunAnswersEveryRequestInOrder :=
  fun s => ⟨_, run_requests_length s, rfl, rfl, rfl⟩

/-- A run from reset serves its requests and gives each what R51 gives it. -/
theorem run_of_reset (qs : List Request) :
    Sys2Proof.core.run qs.length { State.reset with requests := qs } =
      .next { requests := [], served := qs, replies := qs.map answer } :=
  run_requests_length { State.reset with requests := qs }

theorem zip_map_answer (qs : List Request) : qs.zip (qs.map answer) = qs.map fun q => (q, answer q) := by
  simpa only [List.map_id, id_eq] using List.zip_map' (f := id) (g := answer) (l := qs)

/-- Settles O27: alone or in any order, each request gets what R51 gives it. -/
theorem orderOfRequestsDoesNotMatter : Obligations.OrderOfRequestsDoesNotMatter := by
  refine ⟨answer, fun q => ?_, fun qs qs' hperm => ⟨_, _, run_of_reset qs, run_of_reset qs', ?_, ?_⟩⟩
  · exact stepRefinesRequestPseudocode { State.reset with requests := [q] } q [] rfl
  · exact zip_map_answer qs
  · simp only [zip_map_answer]
    exact hperm.map _

end Sys2Proof.Machine
end

section
/-!
PROOFS. Values the spec fixes: the worked requests (spec/30_encoding.md), the usage codes and the KDF's modifiers
(spec/43_kdf.md).
-/

namespace Sys2Proof.Machine

/-! ## The worked requests (R52) -/

/-- Settles O4: the control word is a constant, and each argument stands on its port. -/
theorem workedRequestEncodings : Obligations.WorkedRequestEncodings := by
  have haddpac : packCtl 1 true false false false false 47 0 = 0x02F09 := by decide
  have hkdf : packCtl 3 false false false false false 0 9 = 0x24003 := by decide
  refine ⟨fun ptr kHi kLo modifier => ?_, fun ikeyHi ikeyLo dataHi dataLo => ?_⟩
  · rw [encode, haddpac]
  · rw [encode, hkdf]

/-! ## Usage codes and modifiers (R82, R84) -/

/-- Settles O44: of two different indices the lesser has the lesser code. -/
theorem usageCodesAreEightDifferentOnes : Obligations.UsageCodesAreEightDifferentOnes := by
  intro C i j heq
  obtain hlt | rfl | hlt := lt_trichotomy i j
  · exact absurd heq (BitVec.ne_of_lt (C.usageCodes.rising i j hlt))
  · rfl
  · exact absurd heq.symm (BitVec.ne_of_lt (C.usageCodes.rising j i hlt))

/-- Bits 2:0 of the modifier are those of the usage code, and bit 5 is its bit 3. -/
theorem kdfModifier1_injective : Function.Injective kdfModifier1 := by
  intro u v heq
  have hbit (j : Nat) := congrArg (fun w : Word => w.getLsbD j) heq
  simp only [getLsbD_kdfModifier1] at hbit
  apply BitVec.eq_of_getLsbD_eq
  intro j hj
  obtain hlow | rfl : j < 3 ∨ j = 3 := by omega
  · simpa [hlow, show j ≠ 5 by omega] using hbit j
  · simpa using hbit 5

/-- Bit 4 is clear in every first modifier. -/
theorem getLsbD_kdfModifier1_four (usage : Nibble) : (kdfModifier1 usage).getLsbD 4 = false := by
  rw [getLsbD_kdfModifier1]
  rfl

/-- Bit 4, which is all that the second modifier adds, carries nothing of the usage code. -/
theorem kdfModifier2_injective : Function.Injective kdfModifier2 := by
  intro u v heq
  apply kdfModifier1_injective
  apply BitVec.eq_of_getLsbD_eq
  intro j _
  obtain rfl | hne := eq_or_ne j 4
  · rw [getLsbD_kdfModifier1_four, getLsbD_kdfModifier1_four]
  · have hbit := congrArg (fun w : Word => w.getLsbD j) heq
    simpa only [getLsbD_kdfModifier2, hne, decide_false, Bool.or_false] using hbit

theorem kdfModifier1_ne_kdfModifier2 (u v : Nibble) : kdfModifier1 u ≠ kdfModifier2 v := by
  intro heq
  have hbit := getLsbD_kdfModifier2 v 4
  rw [← heq, getLsbD_kdfModifier1_four, getLsbD_kdfModifier1_four] at hbit
  cases hbit

/-- Settles O43: bit 4 tells the two kinds apart, the other bits tell the usage codes apart. -/
theorem kdfModifiersAreDistinct : Obligations.KdfModifiersAreDistinct :=
  ⟨kdfModifier1_injective, kdfModifier2_injective, kdfModifier1_ne_kdfModifier2⟩

end Sys2Proof.Machine
end

section
/-!
PROOFS. The tables and the linear layers (spec/40_block_primitives.md): the default tables' structure, which layers are
linear, and what the diffusion's rows say of the whole diffusion.
-/

namespace Sys2Proof.Machine

/-! ## The default tables (R54, R57, R61) -/

/-- Settles O30: both derived tables are evaluated. -/
theorem derivedInverseTablesAreThePrintedOnes : Obligations.DerivedInverseTablesAreThePrintedOnes := by
  unfold Obligations.DerivedInverseTablesAreThePrintedOnes
  decide

/-- Settles O32: the printed rows are compared with the block matrix bit by bit. -/
theorem diffusionRowsAreTheBlockMatrix : Obligations.DiffusionRowsAreTheBlockMatrix := by
  unfold Obligations.DiffusionRowsAreTheBlockMatrix
  decide +kernel

/-! ## The rows of the diffusion (R60, R125) -/

/-- A Word with one bit set selects the row of that bit. -/
theorem diffuse_bit (C : Config) (i : Fin 64) : diffuse C (bit (63 - i.val)) = C.mrow[i] := by
  apply BitVec.eq_of_getLsbD_eq
  intro j _
  have hselect (k : Fin 64) :
      ((bit (63 - i.val)).getLsbD (63 - k.val) && C.mrow[k].getLsbD j) = (C.mrow[i].getLsbD j && k == i) := by
    obtain rfl | hne := eq_or_ne k i
    · simp [-BitVec.getLsbD_eq_getElem, show 63 - k.val < 64 by omega]
    · have hplace : 63 - k.val ≠ 63 - i.val := fun h => hne (Fin.ext (by omega))
      simp [-BitVec.getLsbD_eq_getElem, hne, hplace]
  rw [getLsbD_diffuse]
  simp only [hselect]
  cases C.mrow[i].getLsbD j with
  | false => simp
  | true =>
    have hcount : (List.finRange 64).count i = 1 :=
      List.count_eq_one_of_mem (List.nodup_finRange 64) (List.mem_finRange i)
    simp only [Bool.true_and]
    rw [← List.count, hcount]
    rfl

/-- By linearity the diffusion of a diffusion is the fold of the rows' diffusions. -/
theorem diffuse_involutive_of_rows {C : Config} (h : ∀ i : Fin 64, diffuse C C.mrow[i] = bit (63 - i.val)) :
    Function.Involutive (diffuse C) := by
  intro x
  have hfold := linear_diffuse_fold (diffuse_xor C) (fun i => C.mrow[i]) x (List.finRange 64) 0
  rw [diffuse_zero] at hfold
  simp only [h, unit_fold_eq] at hfold
  exact hfold

/-- Settles O31: the rows are the images of the one-bit Words, and these generate every Word. -/
theorem diffusionCheckOnRowsSuffices : Obligations.DiffusionCheckOnRowsSuffices := by
  intro C
  simp only [← bit_eq_twoPow]
  exact ⟨diffuse_involutive_of_rows, fun h i => by rw [← diffuse_bit, h]⟩

/-! ## Linear layers (R65) -/

/-- Linearity over XOR, as R65 uses the word. -/
def XorLinear (f : Word → Word) : Prop := ∀ x y : Word, f (x ^^^ y) = f x ^^^ f y

theorem XorLinear.map_zero {f : Word → Word} (hf : XorLinear f) : f 0 = 0 := by
  have h := hf 0 0
  rwa [BitVec.xor_self, BitVec.xor_self] at h

theorem XorLinear.comp {f g : Word → Word} (hf : XorLinear f) (hg : XorLinear g) : XorLinear fun x => f (g x) :=
  fun x y => (congrArg f (hg x y)).trans (hf _ _)

theorem diffuse_xorLinear (C : Config) : XorLinear (diffuse C) := diffuse_xor C

theorem permute_xorLinear (C : Config) : XorLinear (permute C) :=
  fun x y => eq_of_nib_eq fun n => by simp only [nib_xor, nib_permute]

theorem unpermute_xorLinear (C : Config) : XorLinear (unpermute C) :=
  fun x y => eq_of_nib_eq fun n => by simp only [nib_xor, nib_unpermute]

theorem mix_xorLinear (C : Config) : XorLinear (mix C) := (permute_xorLinear C).comp (diffuse_xorLinear C)

theorem unmix_xorLinear (C : Config) : XorLinear (unmix C) := (diffuse_xorLinear C).comp (unpermute_xorLinear C)

/-- The default S-box and its inverse both take 0 to 0xB. -/
theorem substitute_hardware_not_xorLinear : ¬ XorLinear (substitute hardware) := by
  intro h
  have hzero : nib (substitute hardware 0) 0 = nib 0 0 := by rw [h.map_zero]
  exact absurd hzero (by decide)

theorem unsubstitute_hardware_not_xorLinear : ¬ XorLinear (unsubstitute hardware) := by
  intro h
  have hzero : nib (unsubstitute hardware 0) 0 = nib 0 0 := by rw [h.map_zero]
  exact absurd hzero (by decide)

/-! ## The structure of the default layers (R65) -/

/-- A default row's set bits lie in the quarter of the bit that selects it. -/
theorem div_sixteen_eq_of_getLsbD_mrow {i : Fin 64} {j : Nat} (hj : j < 64)
    (h : hardware.mrow[i].getLsbD j = true) : (63 - i.val) / 16 = j / 16 := by
  have hblock := (diffusionRowsAreTheBlockMatrix i ⟨63 - j, by omega⟩).mp (by
    rwa [show 63 - (63 - j) = j by omega])
  have hquarter : i.val / 16 = (63 - j) / 16 := hblock.1
  omega

/-- Each bit of the default diffusion is a parity over its own quarter. -/
theorem getLsbD_diffuse_hardware_congr {x y : Word} {j : Nat} (hj : j < 64)
    (h : ∀ i, i / 16 = j / 16 → x.getLsbD i = y.getLsbD i) :
    (diffuse hardware x).getLsbD j = (diffuse hardware y).getLsbD j := by
  have hcount : ((List.finRange 64).countP fun i => x.getLsbD (63 - i.val) && hardware.mrow[i].getLsbD j) =
      (List.finRange 64).countP fun i => y.getLsbD (63 - i.val) && hardware.mrow[i].getLsbD j := by
    refine List.countP_congr fun i _ => ?_
    cases hrow : hardware.mrow[i].getLsbD j with
    | false => rw [Bool.and_false, Bool.and_false]
    | true => rw [h _ (div_sixteen_eq_of_getLsbD_mrow hj hrow)]
  rw [getLsbD_diffuse, getLsbD_diffuse, hcount]

/-- The default diffusion acts on each quarter of the Word by itself. -/
theorem diffuse_hardware_quarter {x y : Word} {k : Nat} (hk : k < 4)
    (h : x.extractLsb' (16 * k) 16 = y.extractLsb' (16 * k) 16) :
    (diffuse hardware x).extractLsb' (16 * k) 16 = (diffuse hardware y).extractLsb' (16 * k) 16 := by
  have hagree (i : Nat) (hi : i / 16 = k) : x.getLsbD i = y.getLsbD i := by
    have hbit := congrArg (fun v : BitVec 16 => v.getLsbD (i % 16)) h
    have hplace : 16 * k + i % 16 = i := by omega
    have hlt : i % 16 < 16 := by omega
    simpa only [BitVec.getLsbD_extractLsb', hplace, hlt, decide_true, Bool.true_and] using hbit
  apply BitVec.eq_of_getLsbD_eq
  intro j hj
  rw [BitVec.getLsbD_extractLsb', BitVec.getLsbD_extractLsb',
    getLsbD_diffuse_hardware_congr (by omega) fun i hi => hagree i (by omega)]

/-- The default `SR` fixes the first nibble of each row of four. -/
theorem nib_permute_hardware (x : Word) {n : Fin 16} (hn : n ∈ ([0, 4, 8, 12] : List (Fin 16))) :
    nib (permute hardware x) n = nib x n := by
  have hfix : ∀ n ∈ ([0, 4, 8, 12] : List (Fin 16)), hardware.sr[n] = n := by decide
  rw [nib_permute, hfix n hn]

/-- Settles O33: each layer by its own lemma. -/
theorem linearLayersAndTheirStructure : Obligations.LinearLayersAndTheirStructure := by
  refine ⟨fun C f hf => ?_, fun f hf => ?_, fun x y k hk => diffuse_hardware_quarter hk,
    fun x n hn => nib_permute_hardware x hn⟩
  · have hlinear : XorLinear f := by
      simp only [List.mem_cons, List.not_mem_nil, or_false] at hf
      obtain rfl | rfl | rfl | rfl | rfl := hf
      · exact permute_xorLinear C
      · exact unpermute_xorLinear C
      · exact diffuse_xorLinear C
      · exact mix_xorLinear C
      · exact unmix_xorLinear C
    exact ⟨hlinear.map_zero, hlinear⟩
  · simp only [List.mem_cons, List.not_mem_nil, or_false] at hf
    obtain rfl | rfl := hf
    · exact substitute_hardware_not_xorLinear
    · exact unsubstitute_hardware_not_xorLinear

end Sys2Proof.Machine
end

section
/-!
PROOFS. Bijections and inverses of the core and of the ciphers (spec/41_prince_core.md, spec/42_prince_cipher.md): the
rounds undo each other, alpha-reflection turns the core around, and the cases the spec prints.
-/

namespace Sys2Proof.Machine

/-! ## Words under XOR -/

theorem xor_xor_cancel_left (x y : Word) : x ^^^ (x ^^^ y) = y := by
  rw [← BitVec.xor_assoc, BitVec.xor_self, BitVec.zero_xor]

theorem xor_xor_cancel_right (x y : Word) : x ^^^ y ^^^ y = x := by
  rw [BitVec.xor_assoc, BitVec.xor_self, BitVec.xor_zero]

theorem xor_right_injective (c : Word) : Function.Injective fun x : Word => x ^^^ c :=
  Function.LeftInverse.injective (g := fun x : Word => x ^^^ c) fun x => xor_xor_cancel_right x c

/-! ## Rounds undo each other (R64, R68) -/

/-- Steps undone one at a time, the last first. -/
theorem foldl_reverse_foldl {round back : Word → Fin 12 → Word} (h : ∀ x r, back (round x r) r = x)
    (rounds : List (Fin 12)) (x : Word) : rounds.reverse.foldl back (rounds.foldl round x) = x := by
  induction rounds generalizing x with
  | nil => rfl
  | cons r rounds ih =>
    rw [List.foldl_cons, List.reverse_cons, List.foldl_append, ih]
    exact h x r

theorem foldl_injective {round back : Word → Fin 12 → Word} (h : ∀ x r, back (round x r) r = x)
    (rounds : List (Fin 12)) : Function.Injective fun x => rounds.foldl round x :=
  Function.LeftInverse.injective (g := fun x => rounds.reverse.foldl back x) (foldl_reverse_foldl h rounds)

/-- R68 step 2; tied to the core by `princeCore_eq_rounds`. -/
def forwardRounds (C : Config) (rc : RoundConstantTable) (rk x : Word) : Word :=
  ([1, 2, 3, 4, 5] : List (Fin 12)).foldl (forwardRound C rc rk) x

/-- R68 step 4; tied to the core by `princeCore_eq_rounds`. -/
def backwardRounds (C : Config) (rc : RoundConstantTable) (rk x : Word) : Word :=
  ([6, 7, 8, 9, 10] : List (Fin 12)).foldl (backwardRound C rc rk) x

theorem princeCore_eq_rounds (C : Config) (rc : RoundConstantTable) (s rk : Word) :
    princeCore C rc s rk =
      backwardRounds C rc rk (middle C (forwardRounds C rc rk (s ^^^ rk ^^^ rc[0]))) ^^^ rc[11] ^^^ rk := rfl

section
variable {C : Config} (hC : TablesValid C)
include hC

theorem middle_middle (x : Word) : middle C (middle C x) = x := by
  rw [middle, middle, substitute_unsubstitute hC, diffuse_diffuse hC, unsubstitute_substitute hC]

/-- A backward round undoes the forward round of its own constant. -/
theorem backwardRound_forwardRound (rc : RoundConstantTable) (rk x : Word) (r : Fin 12) :
    backwardRound C rc rk (forwardRound C rc rk x r) r = x := by
  rw [backwardRound, forwardRound, xor_xor_cancel_right, xor_xor_cancel_right, unmix_mix hC,
    unsubstitute_substitute hC]

theorem forwardRound_backwardRound (rc : RoundConstantTable) (rk x : Word) (r : Fin 12) :
    forwardRound C rc rk (backwardRound C rc rk x r) r = x := by
  rw [forwardRound, backwardRound, substitute_unsubstitute hC, mix_unmix hC, xor_xor_cancel_right,
    xor_xor_cancel_right]

theorem forwardRounds_injective (rc : RoundConstantTable) (rk : Word) :
    Function.Injective (forwardRounds C rc rk) :=
  foldl_injective (backwardRound_forwardRound hC rc rk) _

theorem backwardRounds_injective (rc : RoundConstantTable) (rk : Word) :
    Function.Injective (backwardRounds C rc rk) :=
  foldl_injective (forwardRound_backwardRound hC rc rk) _

/-- Every one of the core's five steps is injective in the state. -/
theorem princeCore_injective (rc : RoundConstantTable) (rk : Word) :
    Function.Injective fun s => princeCore C rc s rk := by
  intro s t heq
  simp only [princeCore_eq_rounds] at heq
  have hbackward := xor_right_injective rc[11] (xor_right_injective rk heq)
  have hmiddle := backwardRounds_injective hC rc rk hbackward
  have hforward := (Function.Involutive.injective (middle_middle hC)) hmiddle
  have hinput := forwardRounds_injective hC rc rk hforward
  exact xor_right_injective rk (xor_right_injective rc[0] hinput)

theorem prince_injective (rc : RoundConstantTable) (k0 k1 : Word) :
    Function.Injective fun v => prince C v k0 k1 rc := by
  intro v w heq
  have hcore := xor_right_injective (whiteningKey k0) heq
  exact xor_right_injective k0 (princeCore_injective hC rc k1 hcore)

end

/-- Settles O35: the S-box layers inside and outside undo each other around the involution. -/
theorem middleLayerIsAnInvolution : Obligations.MiddleLayerIsAnInvolution := fun _ hC => middle_middle hC

/-- Settles O36: an injective map of the finitely many Words is a bijection. -/
theorem coreAndPrinceAreBijections : Obligations.CoreAndPrinceAreBijections := fun _ hC rc k0 k1 =>
  ⟨Finite.injective_iff_bijective.mp (princeCore_injective hC rc k1),
    Finite.injective_iff_bijective.mp (prince_injective hC rc k0 k1)⟩

/-! ## Alpha-reflection (R70, R78) -/

section
variable {rc : RoundConstantTable} {alpha : Word} (hrc : Reflective rc alpha)
include hrc

/-- The key's shift turns each constant into the one at the mirrored index. -/
theorem xor_alpha_xor_constant (rk : Word) (r : Fin 12) : (rk ^^^ alpha) ^^^ rc[r] = rk ^^^ rc[r.rev] := by
  rw [← hrc r, BitVec.xor_assoc, BitVec.xor_comm rc[r], xor_xor_cancel_right]

theorem forwardRound_xor_alpha (C : Config) (rk x : Word) (r : Fin 12) :
    forwardRound C rc (rk ^^^ alpha) x r = forwardRound C rc rk x r.rev := by
  rw [forwardRound, forwardRound, BitVec.xor_assoc, BitVec.xor_assoc, BitVec.xor_comm rc[r],
    xor_alpha_xor_constant hrc, BitVec.xor_comm rk]

theorem backwardRound_xor_alpha (C : Config) (rk x : Word) (r : Fin 12) :
    backwardRound C rc (rk ^^^ alpha) x r = backwardRound C rc rk x r.rev := by
  rw [backwardRound, backwardRound, BitVec.xor_assoc x, BitVec.xor_assoc x, xor_alpha_xor_constant hrc]

/-- Under the shifted key the forward rounds are the backward rounds' inverses, the last first. -/
theorem forwardRounds_xor_alpha (C : Config) (rk x : Word) :
    forwardRounds C rc (rk ^^^ alpha) x =
      ([6, 7, 8, 9, 10] : List (Fin 12)).reverse.foldl (forwardRound C rc rk) x := by
  have hmirror : ([6, 7, 8, 9, 10] : List (Fin 12)).reverse = ([1, 2, 3, 4, 5] : List (Fin 12)).map Fin.rev := by
    decide
  rw [hmirror, List.foldl_map, forwardRounds]
  simp only [← forwardRound_xor_alpha hrc]

theorem backwardRounds_xor_alpha (C : Config) (rk x : Word) :
    backwardRounds C rc (rk ^^^ alpha) x =
      ([1, 2, 3, 4, 5] : List (Fin 12)).reverse.foldl (backwardRound C rc rk) x := by
  have hmirror : ([1, 2, 3, 4, 5] : List (Fin 12)).reverse = ([6, 7, 8, 9, 10] : List (Fin 12)).map Fin.rev := by
    decide
  rw [hmirror, List.foldl_map, backwardRounds]
  simp only [← backwardRound_xor_alpha hrc]

/-- The second core's first step takes off what the first core's last step put on, and the other way round: the two
ends of the table are mirrored. -/
theorem whiten_xor_alpha (x rk : Word) :
    (x ^^^ rc[11] ^^^ rk) ^^^ (rk ^^^ alpha) ^^^ rc[0] = x ∧
      (x ^^^ rk ^^^ rc[0]) ^^^ rc[11] ^^^ (rk ^^^ alpha) = x := by
  have hfirst : (rk ^^^ alpha) ^^^ rc[0] = rk ^^^ rc[11] := xor_alpha_xor_constant hrc rk 0
  have hlast : (rk ^^^ alpha) ^^^ rc[11] = rk ^^^ rc[0] := xor_alpha_xor_constant hrc rk 11
  constructor
  · rw [BitVec.xor_assoc _ _ rc[0], hfirst, ← BitVec.xor_assoc, xor_xor_cancel_right, xor_xor_cancel_right]
  · rw [BitVec.xor_assoc _ rc[11], BitVec.xor_comm rc[11], hlast, ← BitVec.xor_assoc,
      BitVec.xor_assoc x rk, BitVec.xor_comm rk, ← BitVec.xor_assoc, xor_xor_cancel_right, xor_xor_cancel_right]

/-- Step by step the second core undoes the first: its forward rounds the backward rounds, its middle layer the middle
layer, its backward rounds the forward rounds. -/
theorem princeCore_xor_alpha {C : Config} (hC : TablesValid C) (s rk : Word) :
    princeCore C rc (princeCore C rc s rk) (rk ^^^ alpha) = s := by
  have hforward (x : Word) : forwardRounds C rc (rk ^^^ alpha) (backwardRounds C rc rk x) = x := by
    rw [forwardRounds_xor_alpha hrc]
    exact foldl_reverse_foldl (forwardRound_backwardRound hC rc rk) _ x
  have hbackward (x : Word) : backwardRounds C rc (rk ^^^ alpha) (forwardRounds C rc rk x) = x := by
    rw [backwardRounds_xor_alpha hrc]
    exact foldl_reverse_foldl (backwardRound_forwardRound hC rc rk) _ x
  rw [princeCore_eq_rounds C rc _ (rk ^^^ alpha), princeCore_eq_rounds C rc s rk, (whiten_xor_alpha hrc _ rk).1,
    hforward, middle_middle hC, hbackward, (whiten_xor_alpha hrc s rk).2]

end

/-- Settles O38: the reflected core undoes the core, and the default constants are compared pair by pair. -/
theorem alphaReflectionInvertsTheCore : Obligations.AlphaReflectionInvertsTheCore := by
  refine ⟨fun C hC rc alpha hrc s rk => princeCore_xor_alpha hrc hC s rk, ?_⟩
  unfold Reflective
  decide

/-- Settles O39: the whitenings come off, and the reflected core undoes the core between them. -/
theorem princeInverseFormula : Obligations.PrinceInverseFormula := by
  intro C hC rc alpha hrc v k0 k1
  rw [prince, xor_xor_cancel_right, princeCore_xor_alpha hrc hC, xor_xor_cancel_right]

/-! ## The whitening map (R73) -/

theorem whiteningKey_xor (x y : Word) : whiteningKey (x ^^^ y) = whiteningKey x ^^^ whiteningKey y := by
  apply BitVec.eq_of_getLsbD_eq
  intro i hi
  rw [BitVec.getLsbD_xor]
  obtain rfl | hpos := Nat.eq_zero_or_pos i
  · simp only [getLsbD_whiteningKey_zero, BitVec.getLsbD_xor, Bool.xor_assoc, Bool.xor_left_comm (y.getLsbD 1)]
  · simp only [getLsbD_whiteningKey_of_pos _ hpos (Nat.le_of_lt_succ hi), BitVec.getLsbD_xor]

/-- Every bit of the key but bit 1 stands in the whitened key; bit 1 does under bit 63. -/
theorem whiteningKey_injective : Function.Injective whiteningKey := by
  intro x y heq
  have hbit (j : Nat) : (whiteningKey x).getLsbD j = (whiteningKey y).getLsbD j := by rw [heq]
  have hupper {j : Nat} (hj : 1 ≤ j) (hj' : j ≤ 63) : x.getLsbD ((j + 1) % 64) = y.getLsbD ((j + 1) % 64) := by
    rw [← getLsbD_whiteningKey_of_pos x hj hj', hbit, getLsbD_whiteningKey_of_pos y hj hj']
  have hlast : x.getLsbD 63 = y.getLsbD 63 := hupper (j := 62) (by decide) (by decide)
  have hone : x.getLsbD 1 = y.getLsbD 1 := by
    have hzero := hbit 0
    rwa [getLsbD_whiteningKey_zero, getLsbD_whiteningKey_zero, hlast, Bool.xor_left_inj] at hzero
  apply BitVec.eq_of_getLsbD_eq
  intro i hi
  obtain rfl | rfl | htwo : i = 0 ∨ i = 1 ∨ 2 ≤ i := by omega
  · exact hupper (j := 63) (by decide) (by decide)
  · exact hone
  · have hprev := hupper (j := i - 1) (by omega) (by omega)
    rwa [show (i - 1 + 1) % 64 = i by omega] at hprev

/-- Settles O41: bit by bit, and by counting. -/
theorem whiteningKeyIsLinearAndInvertible : Obligations.WhiteningKeyIsLinearAndInvertible :=
  ⟨whiteningKey_xor, Finite.injective_iff_bijective.mp whiteningKey_injective⟩

/-! ## Printed cases (R68, R74) -/

/-- Settles O20: each vector is one evaluation of the cipher. -/
theorem publishedPrinceVectors : Obligations.PublishedPrinceVectors := by
  unfold Obligations.PublishedPrinceVectors
  decide +kernel

/-- Settles O37: two evaluations of the core. -/
theorem coreIsNotAnInvolution : Obligations.CoreIsNotAnInvolution := by
  unfold Obligations.CoreIsNotAnInvolution
  decide +kernel

end Sys2Proof.Machine
end

section
/-!
PROOFS. The laws of the pointer datapath (spec/44_pac_datapath.md): what the three functions keep of a pointer, signing
followed by authentication, and the statements about them.
-/

namespace Sys2Proof.Machine

/-! ## The size of the code field (R92) -/

theorem length_filter_le_range (m n : Nat) : ((List.range n).filter fun j => decide (m ≤ j)).length = n - m := by
  induction n with
  | zero => simp
  | succ n ih =>
    rw [List.range_succ, List.filter_append, List.length_append, ih]
    by_cases h : m ≤ n
    · simp [h]
      omega
    · simp [h]
      omega

/-- Settles O45: below bit 55 the mask is the bits from `bpb` on, above it the top byte when `tbi` is clear. -/
theorem numberOfCodeBits : Obligations.NumberOfCodeBits := by
  intro bpb tbi _
  have hlow : (List.range 55).filter (fun j => (pacMask bpb tbi).getLsbD j) =
      (List.range 55).filter fun j => decide (bpb ≤ j) := by
    refine List.filter_congr fun j hj => ?_
    have hlt := List.mem_range.mp hj
    simp [show j ≤ 54 by omega, show ¬ 56 ≤ j by omega]
  have hhigh : (List.range' 55 9).filter (fun j => (pacMask bpb tbi).getLsbD j) =
      (List.range' 55 9).filter fun j => !tbi && decide (56 ≤ j) := by
    refine List.filter_congr fun j hj => ?_
    have hge : 55 ≤ j ∧ j < 55 + 9 := by simpa using hj
    simp [show ¬ j ≤ 54 by omega, show j ≤ 63 by omega]
  have hsplit : List.range 64 = List.range 55 ++ List.range' 55 9 := by decide
  rw [hsplit, List.filter_append, List.length_append, hlow, hhigh, length_filter_le_range]
  cases tbi <;> rfl

/-! ## Strip (R93, R94) -/

/-- The selector bit is never masked (R90). -/
theorem getLsbD_pacMask_fiftyFive (bpb : Nat) (tbi : Bool) : (pacMask bpb tbi).getLsbD 55 = false := by
  rw [getLsbD_pacMask]
  simp

theorem getLsbD_strip_fiftyFive (ptr : Word) (bpb : Nat) (tbi : Bool) :
    (strip ptr bpb tbi).getLsbD 55 = ptr.getLsbD 55 := by
  rw [getLsbD_strip, getLsbD_pacMask_fiftyFive, if_neg Bool.false_ne_true]

theorem getLsbD_strip_of_masked (ptr : Word) {bpb : Nat} {tbi : Bool} {j : Nat}
    (h : (pacMask bpb tbi).getLsbD j = true) : (strip ptr bpb tbi).getLsbD j = ptr.getLsbD 55 := by
  rw [getLsbD_strip, if_pos h]

/-- Strip reads only the bits outside the mask, bit 55 among them. -/
theorem strip_congr {ptr ptr' : Word} {bpb : Nat} {tbi : Bool}
    (h : ∀ j, (pacMask bpb tbi).getLsbD j = false → ptr.getLsbD j = ptr'.getLsbD j) :
    strip ptr bpb tbi = strip ptr' bpb tbi := by
  apply BitVec.eq_of_getLsbD_eq
  intro j _
  rw [getLsbD_strip, getLsbD_strip]
  cases hm : (pacMask bpb tbi).getLsbD j with
  | true => exact h 55 (getLsbD_pacMask_fiftyFive bpb tbi)
  | false => exact h j hm

/-- A Word that strip leaves as it is: every masked bit already equals bit 55. -/
theorem strip_eq_self {ptr : Word} {bpb : Nat} {tbi : Bool}
    (h : ∀ j, (pacMask bpb tbi).getLsbD j = true → ptr.getLsbD j = ptr.getLsbD 55) : strip ptr bpb tbi = ptr := by
  apply BitVec.eq_of_getLsbD_eq
  intro j _
  rw [getLsbD_strip]
  split
  next hm => exact (h j hm).symm
  next => rfl

theorem strip_strip (ptr : Word) (bpb : Nat) (tbi : Bool) :
    strip (strip ptr bpb tbi) bpb tbi = strip ptr bpb tbi :=
  strip_eq_self fun j hm => by rw [getLsbD_strip_of_masked ptr hm, getLsbD_strip_fiftyFive]

/-- From `bpb` up to the top of the extension field every bit is masked or bit 55. -/
theorem getLsbD_pacMask_of_le_topBit {bpb : Nat} {tbi : Bool} {j : Nat} (hlow : bpb ≤ j) (htop : j ≤ topBit tbi)
    (hne : j ≠ 55) : (pacMask bpb tbi).getLsbD j = true := by
  rw [getLsbD_pacMask_iff]
  cases tbi with
  | true =>
    have htop' : j ≤ 55 := htop
    exact Or.inl ⟨hlow, by omega⟩
  | false =>
    have htop' : j ≤ 63 := htop
    by_cases h : j ≤ 54
    · exact Or.inl ⟨hlow, h⟩
    · exact Or.inr ⟨rfl, by omega, htop'⟩

/-- With `bpb` at most 55 or `tbi` set, masked bits lie in the extension field, which then reaches down to bit 55. -/
theorem le_topBit_of_getLsbD_pacMask {bpb : Nat} {tbi : Bool} {j : Nat} (hpos : bpb ≤ 55 ∨ tbi = true)
    (hm : (pacMask bpb tbi).getLsbD j = true) : bpb ≤ j ∧ j ≤ topBit tbi ∧ bpb ≤ 55 := by
  obtain ⟨hlow, hhigh⟩ | ⟨rfl, hlow, hhigh⟩ := (getLsbD_pacMask_iff bpb tbi j).mp hm
  · have htop : 55 ≤ topBit tbi := by cases tbi <;> decide
    omega
  · have htop : topBit false = 63 := rfl
    have hbpb : bpb ≤ 55 := hpos.resolve_right Bool.false_ne_true
    omega

theorem strip_canonical (ptr : Word) (bpb : Nat) (tbi : Bool) : Canonical (strip ptr bpb tbi) bpb tbi := by
  intro j hlow htop
  obtain rfl | hne := eq_or_ne j 55
  · rfl
  · rw [getLsbD_strip_of_masked ptr (getLsbD_pacMask_of_le_topBit hlow htop hne), getLsbD_strip_fiftyFive]

/-- Settles O46: the masked bits become bit 55, which with all other bits is kept. -/
theorem stripLaws : Obligations.StripLaws := by
  intro ptr bpb tbi
  refine ⟨strip_strip ptr bpb tbi, fun ptr' heq => strip_congr fun j hm => ?_, fun _ => strip_canonical ptr bpb tbi⟩
  by_cases hj : j < 64
  · refine (and_eq_and_iff_getLsbD_eq ptr ptr' _).mp heq j ?_
    rw [BitVec.getLsbD_not, hm, decide_eq_true hj, Bool.not_false, Bool.and_self]
  · rw [BitVec.getLsbD_of_ge ptr j (Nat.le_of_not_lt hj), BitVec.getLsbD_of_ge ptr' j (Nat.le_of_not_lt hj)]

/-! ## What signing and authentication keep (R90, R98) -/

section
variable (C : Config) (ptr kHi kLo modifier : Word) (bpb : Nat) (tbi ehp ehp2 : Bool)

theorem getLsbD_pacMerge_of_not_masked (pac : Word) {m : Word} {j : Nat} (h : m.getLsbD j = false) :
    (pacMerge ptr pac m ehp2).getLsbD j = ptr.getLsbD j := by
  rw [getLsbD_pacMerge, h, if_neg Bool.false_ne_true]

/-- Without EnhancedPAC2 the code overwrites the masked bits. -/
theorem getLsbD_pacMerge_of_masked (pac : Word) {m : Word} {j : Nat} (h : m.getLsbD j = true) :
    (pacMerge ptr pac m false).getLsbD j = pac.getLsbD j := by
  rw [getLsbD_pacMerge, if_pos h, Bool.false_and, Bool.false_xor]

theorem getLsbD_addPac_of_not_masked {j : Nat} (h : (pacMask bpb tbi).getLsbD j = false) :
    (addPac C ptr kHi kLo modifier bpb tbi ehp ehp2).getLsbD j = ptr.getLsbD j :=
  getLsbD_pacMerge_of_not_masked ptr ehp2 _ h

/-- R98 (a): so authentication feeds the cipher the Word that signing fed it. -/
theorem strip_addPac :
    strip (addPac C ptr kHi kLo modifier bpb tbi ehp ehp2) bpb tbi = strip ptr bpb tbi :=
  strip_congr fun _ => getLsbD_addPac_of_not_masked C ptr kHi kLo modifier bpb tbi ehp ehp2

/-- All that `authWith` can give. -/
theorem authWith_cases (p : Word) (bKey : Bool) :
    authWith C p ptr bKey bpb tbi ehp2 = pacMerge ptr p (pacMask bpb tbi) true ∨
      authWith C p ptr bKey bpb tbi ehp2 = strip ptr bpb tbi ∨
      authWith C p ptr bKey bpb tbi ehp2 = authFail C (strip ptr bpb tbi) bKey tbi := by
  cases ehp2 with
  | true => exact Or.inl (authWith_of_ehp2 C p ptr bKey bpb tbi)
  | false =>
    by_cases h : ∀ j, (pacMask bpb tbi).getLsbD j = true → ptr.getLsbD j = p.getLsbD j
    · exact Or.inr (Or.inl (authWith_of_agree C p ptr bKey bpb tbi h))
    · push Not at h
      obtain ⟨j, hm, hne⟩ := h
      exact Or.inr (Or.inr (authWith_of_differ C p ptr bKey bpb tbi hm hne))

end

/-- The hardware's error code stands beside the selector bit, at 53:52 or at 61:60. -/
theorem getLsbD_authFail_hardware_fiftyFive (original : Word) (bKey tbi : Bool) :
    (authFail hardware original bKey tbi).getLsbD 55 = original.getLsbD 55 := by
  obtain ⟨-, -, hother⟩ := getLsbD_authFail_cases (errorLsb_hardware tbi) (by cases tbi <;> decide)
    (by cases tbi <;> decide) original bKey
  exact hother 55 (by cases tbi <;> decide) (by cases tbi <;> decide)

theorem getLsbD_auth_hardware_fiftyFive (ptr kHi kLo : Word) (bKey : Bool) (modifier : Word) (bpb : Nat)
    (tbi ehp2 : Bool) : (auth hardware ptr kHi kLo bKey modifier bpb tbi ehp2).getLsbD 55 = ptr.getLsbD 55 := by
  rw [auth]
  obtain h | h | h := authWith_cases hardware ptr bpb tbi ehp2
    (modifiedPrince hardware (strip ptr bpb tbi) kHi kLo modifier) bKey <;> rw [h]
  · exact getLsbD_pacMerge_of_not_masked ptr true _ (getLsbD_pacMask_fiftyFive bpb tbi)
  · exact getLsbD_strip_fiftyFive ptr bpb tbi
  · rw [getLsbD_authFail_hardware_fiftyFive, getLsbD_strip_fiftyFive]

/-- Settles O47: bit 55 lies outside the mask and outside the error code, and strip reads nothing signing writes. -/
theorem selectorBitAndStrippedPointerAreKept : Obligations.SelectorBitAndStrippedPointerAreKept :=
  fun ptr kHi kLo modifier bpb tbi ehp ehp2 bKey =>
    ⟨getLsbD_strip_fiftyFive ptr bpb tbi,
      getLsbD_addPac_of_not_masked hardware ptr kHi kLo modifier bpb tbi ehp ehp2 (getLsbD_pacMask_fiftyFive bpb tbi),
      getLsbD_auth_hardware_fiftyFive ptr kHi kLo bKey modifier bpb tbi ehp2,
      strip_addPac hardware ptr kHi kLo modifier bpb tbi ehp ehp2⟩

/-! ## Signing, then authenticating (R102, R103) -/

/-- Where the mask lies in the extension field, a pointer that is not poisoned is its own stripped form. -/
theorem strip_of_not_poisoned {ptr : Word} {bpb : Nat} {tbi : Bool} (h : extPoisoned ptr bpb tbi = false)
    (hpos : bpb ≤ 55 ∨ tbi = true) : strip ptr bpb tbi = ptr := by
  refine strip_eq_self fun j hm => ?_
  obtain ⟨hlow, htop, hbpb⟩ := le_topBit_of_getLsbD_pacMask hpos hm
  have hequal := (extPoisoned_eq_false_iff ptr bpb tbi).mp h
  have hselector : 55 ≤ topBit tbi := by cases tbi <;> decide
  rw [hequal j hlow htop, hequal 55 hbpb hselector]

/-- XOR of the same code twice gives the pointer back. -/
theorem pacMerge_pacMerge (ptr pac m : Word) : pacMerge (pacMerge ptr pac m true) pac m true = ptr :=
  xor_xor_cancel_right ptr (pac &&& m)

section
variable (C : Config) (ptr kHi kLo modifier : Word) (bpb : Nat) (tbi ehp : Bool)

/-- Authentication of a signed pointer, over the one cipher output that both use. -/
theorem auth_addPac (ehp2 bKey : Bool) :
    auth C (addPac C ptr kHi kLo modifier bpb tbi ehp ehp2) kHi kLo bKey modifier bpb tbi ehp2 =
      authWith C (modifiedPrince C (strip ptr bpb tbi) kHi kLo modifier)
        (addPac C ptr kHi kLo modifier bpb tbi ehp ehp2) bKey bpb tbi ehp2 := by
  rw [auth, strip_addPac]

/-- A pointer that is not poisoned is signed with the cipher output itself. -/
theorem addPac_of_not_poisoned (ehp2 : Bool) (h : extPoisoned ptr bpb tbi = false) :
    addPac C ptr kHi kLo modifier bpb tbi ehp ehp2 =
      pacMerge ptr (modifiedPrince C (strip ptr bpb tbi) kHi kLo modifier) (pacMask bpb tbi) ehp2 := by
  rw [addPac, addPacWith, signCode_of_not_poisoned _ _ (Bool.eq_false_iff.mp h)]

end

/-- Settles O48: with EnhancedPAC2 the second XOR takes the code off again; without it the codes agree. -/
theorem signThenAuthenticateRoundTrip : Obligations.SignThenAuthenticateRoundTrip := by
  intro C ptr kHi kLo modifier bpb tbi ehp ehp2 bKey hclean hpos
  rw [auth_addPac]
  cases ehp2 with
  | true =>
    have hpos' : bpb ≤ 55 ∨ tbi = true := by simpa using hpos
    rw [addPac_of_not_poisoned C ptr kHi kLo modifier bpb tbi ehp true hclean, authWith_of_ehp2, pacMerge_pacMerge,
      strip_of_not_poisoned hclean hpos']
  | false =>
    rw [authWith_of_agree, strip_addPac]
    intro j hm
    rw [addPac_of_not_poisoned C ptr kHi kLo modifier bpb tbi ehp false hclean,
      getLsbD_pacMerge_of_masked ptr _ hm]

/-- A field with two different bits reaches below its top, so that the bit that signing flips is masked. -/
theorem getLsbD_pacMask_flipped_bit {ptr : Word} {bpb : Nat} {tbi : Bool} (h : extPoisoned ptr bpb tbi = true) :
    (pacMask bpb tbi).getLsbD (topBit tbi - 1) = true := by
  obtain ⟨j, k, hj, hjtop, hk, hktop, hne⟩ := (extPoisoned_iff_exists_ne ptr bpb tbi).mp h
  have hjk : j ≠ k := fun heq => hne (by rw [heq])
  have htop : topBit tbi - 1 ≠ 55 := by cases tbi <;> decide
  exact getLsbD_pacMask_of_le_topBit (by omega) (Nat.sub_le _ _) htop

/-- The code for a poisoned pointer differs from the cipher output at a masked bit: at the flipped one, or, where the
code is 0, at any that is set. -/
theorem exists_signCode_ne {p ptr : Word} {bpb : Nat} {tbi ehp : Bool} (h : extPoisoned ptr bpb tbi = true)
    (hp : ehp = true → p &&& pacMask bpb tbi ≠ 0) :
    ∃ j, (pacMask bpb tbi).getLsbD j = true ∧ (signCode p ptr bpb tbi ehp false).getLsbD j ≠ p.getLsbD j := by
  cases ehp with
  | true =>
    have hdiffer : ¬ 0 &&& pacMask bpb tbi = p &&& pacMask bpb tbi := fun heq =>
      hp rfl (by rw [← heq]; exact BitVec.zero_and)
    rw [and_eq_and_iff_getLsbD_eq] at hdiffer
    push Not at hdiffer
    rwa [signCode_of_poisoned_of_ehp p ptr h false]
  | false =>
    refine ⟨topBit tbi - 1, getLsbD_pacMask_flipped_bit h, ?_⟩
    have hlt : topBit tbi - 1 < 64 := by cases tbi <;> decide
    rw [signCode_of_poisoned_of_neither p ptr h, BitVec.getLsbD_xor, getLsbD_bit, decide_eq_true hlt,
      decide_eq_true rfl, Bool.and_self, Bool.xor_true]
    exact Bool.not_ne_self _

/-- R110: the caller reads the code from the bits where the failure wrote it. -/
theorem failureBits_authFail {C : Config} {tbi : Bool} (hlsb : errorLsb C tbi ≤ 62) (original : Word) (bKey : Bool) :
    failureBits C (authFail C original bKey tbi) tbi = if bKey then 0b10 else 0b01 := by
  obtain ⟨hhigh, hlow, -⟩ := getLsbD_authFail_cases (high := errorLsb C tbi + 1) rfl (by omega) (by omega) original bKey
  apply BitVec.eq_of_getLsbD_eq
  intro j hj
  rw [failureBits, BitVec.getLsbD_extractLsb', decide_eq_true hj, Bool.true_and]
  obtain rfl | rfl : j = 0 ∨ j = 1 := by omega
  · rw [Nat.add_sub_cancel] at hlow
    rw [Nat.add_zero, hlow]
    cases bKey <;> rfl
  · rw [hhigh]
    cases bKey <;> rfl

/-- Settles O49: the signed code differs from the cipher output at a masked bit, which authentication finds. -/
theorem poisonedPointersFailAuthentication : Obligations.PoisonedPointersFailAuthentication := by
  intro C ptr kHi kLo modifier bpb tbi ehp bKey htbi hnotbi hpoisoned hp
  obtain ⟨j, hm, hne⟩ := exists_signCode_ne hpoisoned hp
  have hlsb : errorLsb C tbi ≤ 62 := by
    cases tbi with
    | true => exact htbi
    | false => exact hnotbi
  refine ⟨?_, failureBits_authFail hlsb _ bKey⟩
  rw [auth_addPac, authWith_of_differ (j := j) (hm := hm), strip_addPac]
  rwa [addPac, addPacWith, getLsbD_pacMerge_of_masked ptr _ hm]

/-! ## Corner cases of authentication (R101) -/

/-- With an empty mask no code is merged, compared or stripped. -/
theorem auth_of_mask_empty (C : Config) (ptr kHi kLo : Word) (bKey : Bool) (modifier : Word) {bpb : Nat} {tbi : Bool}
    (ehp2 : Bool) (h : ∀ j, (pacMask bpb tbi).getLsbD j = false) :
    auth C ptr kHi kLo bKey modifier bpb tbi ehp2 = ptr := by
  have hnone {j : Nat} (hm : (pacMask bpb tbi).getLsbD j = true) : False := Bool.false_ne_true ((h j).symm.trans hm)
  rw [auth]
  cases ehp2 with
  | true =>
    rw [authWith_of_ehp2]
    exact BitVec.eq_of_getLsbD_eq fun j _ => getLsbD_pacMerge_of_not_masked ptr true _ (h j)
  | false =>
    rw [authWith_of_agree _ _ _ _ _ _ fun j hm => (hnone hm).elim, strip_eq_self fun j hm => (hnone hm).elim]

/-- Two equal bits overwritten by two different ones: exactly one of them changes. -/
theorem existsUnique_authFail_ne {C : Config} {tbi : Bool} {high : Nat} (hlsb : errorLsb C tbi = high - 1)
    (hpos : 1 ≤ high) (hlt : high < 64) {original : Word} (bKey : Bool)
    (h : original.getLsbD high = original.getLsbD (high - 1)) :
    ∃! j : Nat, (authFail C original bKey tbi).getLsbD j ≠ original.getLsbD j := by
  obtain ⟨hhigh, hlow, hother⟩ := getLsbD_authFail_cases hlsb hpos hlt original bKey
  by_cases hsame : original.getLsbD high = bKey
  · refine ⟨high - 1, ?_, fun j hne => ?_⟩
    · simp only [hlow, ← h, hsame]
      exact Bool.not_ne_self _
    · by_contra hj
      obtain rfl | hj' := eq_or_ne j high
      · exact hne (hhigh.trans hsame.symm)
      · exact hne (hother j hj' hj)
  · refine ⟨high, ?_, fun j hne => ?_⟩
    · simp only [hhigh]
      exact Ne.symm hsame
    · by_contra hj
      obtain rfl | hj' := eq_or_ne j (high - 1)
      · exact hne (by rw [hlow, ← h, Bool.eq_not_of_ne hsame])
      · exact hne (hother j hj hj')

/-- Both positions of the hardware's error code are masked: with `tbi` clear always, else for `bpb` at most 52. -/
theorem getLsbD_pacMask_error_code {bpb : Nat} {tbi : Bool} (h : tbi = false ∨ bpb ≤ 52) :
    (pacMask bpb tbi).getLsbD (if tbi then 53 else 61) = true ∧
      (pacMask bpb tbi).getLsbD ((if tbi then 53 else 61) - 1) = true := by
  rw [getLsbD_pacMask_iff, getLsbD_pacMask_iff]
  cases tbi with
  | true =>
    have hle : bpb ≤ 52 := h.resolve_left (Ne.symm Bool.false_ne_true)
    exact ⟨Or.inl (show bpb ≤ 53 ∧ 53 ≤ 54 by omega), Or.inl (show bpb ≤ 52 ∧ 52 ≤ 54 by omega)⟩
  | false => exact ⟨Or.inr (by decide), Or.inr (by decide)⟩

/-- Settles O50: the key family is not read, the mask is empty, and a stripped pointer's code bits are equal. -/
theorem authCornerCases : Obligations.AuthCornerCases := by
  refine ⟨fun ptr kHi kLo modifier bpb tbi => ?_, fun ptr kHi kLo modifier bpb ehp2 bKey hbpb => ?_,
    fun ptr bpb tbi bKey hpos => ?_⟩
  · rw [auth, auth, authWith_of_ehp2, authWith_of_ehp2]
  · refine auth_of_mask_empty hardware ptr kHi kLo bKey modifier ehp2 fun j => ?_
    rw [Bool.eq_false_iff, ne_eq, getLsbD_pacMask_iff]
    rintro (⟨hlow, hhigh⟩ | ⟨htbi, -⟩)
    · omega
    · cases htbi
  · obtain ⟨hhigh, hlow⟩ := getLsbD_pacMask_error_code hpos
    refine existsUnique_authFail_ne (errorLsb_hardware tbi) (by cases tbi <;> decide) (by cases tbi <;> decide) bKey ?_
    rw [getLsbD_strip_of_masked ptr hhigh, getLsbD_strip_of_masked ptr hlow]

end Sys2Proof.Machine
end
